-- ==== Sys2Proof/Word.lean ====
section
/-! DEFINITION. The Word and the register number.

00_scope.md R8: every operand, modulus, exponent, round count and result is an unsigned 32-bit Word.
10_state.md R20: sixteen registers x[0] to x[15]. -/

namespace Sys2Proof

/-- A Word: 32 bits, read unsigned (00_scope.md R8, R10). -/
abbrev Word := BitVec 32

/-- The number of a general register, 0 to 15 (10_state.md R20).  The bound is part of the type, so no
term names a register the CORE does not have. -/
abbrev RegNum := Fin 16

/-- A byte of the host's Block (20_memory.md R61). -/
abbrev Byte := BitVec 8

end Sys2Proof
end

