-- ==== Sys2Proof/Syntax.lean ====
section
/-! DEFINITION. The commands (30_encoding.md R92, R97): one constructor per row of spec/opcode_table.json.

The fields stand in the order of the assembly syntax (00_scope.md R15).  A field that a command does not
use is not a field of its constructor: it is 0 in the word (30_encoding.md R94). -/

namespace Sys2Proof

/-- A legal command. -/
inductive Instr where
  /-- `MADD rd, rs1, rs2, rm` (40_modular_adder.md R111). -/
  | madd (rd rs1 rs2 rm : RegNum)
  /-- `MSUB rd, rs1, rs2, rm` (40_modular_adder.md R113). -/
  | msub (rd rs1 rs2 rm : RegNum)
  /-- `MMUL rd, rs1, rs2, rm` (41_modular_multiplier.md R131). -/
  | mmul (rd rs1 rs2 rm : RegNum)
  /-- `MPOW rd, rs1, rs2, rm` (42_modular_exponentiation.md R141). -/
  | mpow (rd rs1 rs2 rm : RegNum)
  /-- `MRT rd, rs1, rs2` (43_miller_rabin.md R155). -/
  | mrt (rd rs1 rs2 : RegNum)
  /-- `MINV rd, rs1, rm` (44_extended_gcd.md R171). -/
  | minv (rd rs1 rm : RegNum)
  /-- `GCD rd, rs1, rs2` (44_extended_gcd.md R181). -/
  | gcd (rd rs1 rs2 : RegNum)
  deriving DecidableEq, Repr

end Sys2Proof
end

