-- ==== Sys2Proof/WellFormed.lean ====
section
/-! DEFINITION. Well-formedness.

A term of `Instr` is well-formed by its type: a register number is a `Fin 16` and an unused field does not
exist.  What can be ill-formed is a command as a programmer writes it, before the assembler has accepted
it: a mnemonic of 30_encoding.md R97 or R99 with operands that are plain numbers. -/

namespace Sys2Proof

/-- The mnemonics an assembler accepts: the seven commands (30_encoding.md R97) and the three
pseudo-instructions (R99). -/
inductive Mnemonic where
  | madd | msub | mmul | mpow | mrt | minv | gcd
  | mdbl | msqr | mclr
  deriving DecidableEq, Repr

/-- How many operands a mnemonic takes (30_encoding.md R97, R99). -/
def Mnemonic.arity : Mnemonic → Nat
  | .madd | .msub | .mmul | .mpow => 4
  | .mrt | .minv | .gcd => 3
  | .mdbl | .msqr | .mclr => 3

/-- A command as written: the register numbers are not bounded yet. -/
structure SourceCommand where
  mnemonic : Mnemonic
  operands : List Nat
  deriving DecidableEq, Repr

/-- 30_encoding.md R99: "The assembler rejects an operand count that differs from rule R97". -/
def SourceCommand.arityOk (c : SourceCommand) : Bool := c.operands.length == c.mnemonic.arity

/-- 30_encoding.md R99: "Register names are `R0` to `R15`, with no other alias". -/
def SourceCommand.registersOk (c : SourceCommand) : Bool := c.operands.all (· < 16)

/-- Both checks. -/
def SourceCommand.wf (c : SourceCommand) : Bool := c.arityOk && c.registersOk

end Sys2Proof
end

