-- ==== Sys2Proof/Decode.lean ====
section
/-! DEFINITION. Command words: the decoder (30_encoding.md R98), the encoder (R90, R97) and the opcode
table's match and mask rows (R97).  The decoder is total: a word is a command or illegal, for a named
reason. -/

namespace Sys2Proof

/-- Which clause of 30_encoding.md R96 makes a word illegal.  The CORE reports one code for all four. -/
inductive IllegalReason where
  /-- RSV (bits 31:24) is not 0 (R93). -/
  | reservedBits
  /-- OPC is 0x00 or 0x08 to 0xFF (R92). -/
  | opcode
  /-- RM is not 0 in an MRT or a GCD (R94). -/
  | unusedRm
  /-- RS2 is not 0 in a MINV (R94). -/
  | unusedRs2
  deriving DecidableEq, Repr

/-- What a word decodes to. -/
inductive Decoded where
  | command (i : Instr)
  | illegal (why : IllegalReason)
  deriving DecidableEq, Repr

/-- OPC, bits 7:0 (30_encoding.md R90). -/
def opcOf (w : Word) : BitVec 8 := w.extractLsb' 0 8

/-- RSV, bits 31:24 (30_encoding.md R90). -/
def rsvOf (w : Word) : BitVec 8 := w.extractLsb' 24 8

/-- The 4-bit register field whose lowest bit is `lo` (30_encoding.md R90, R91). -/
def regField (lo : Nat) (w : Word) : RegNum :=
  ⟨(w.extractLsb' lo 4).toNat, (w.extractLsb' lo 4).isLt⟩

/-- RD, bits 11:8. -/
def rdField (w : Word) : RegNum := regField 8 w
/-- RS1, bits 15:12. -/
def rs1Field (w : Word) : RegNum := regField 12 w
/-- RS2, bits 19:16. -/
def rs2Field (w : Word) : RegNum := regField 16 w
/-- RM, bits 23:20. -/
def rmField (w : Word) : RegNum := regField 20 w

/-- Decode, as the CORE performs it on cmd_latch (30_encoding.md R98): RSV first, then OPC, then the
fields the opcode leaves unused. -/
def decode (w : Word) : Decoded :=
  if rsvOf w ≠ 0 then .illegal .reservedBits
  else if opcOf w = 0x01 then .command (.madd (rdField w) (rs1Field w) (rs2Field w) (rmField w))
  else if opcOf w = 0x02 then .command (.msub (rdField w) (rs1Field w) (rs2Field w) (rmField w))
  else if opcOf w = 0x03 then .command (.mmul (rdField w) (rs1Field w) (rs2Field w) (rmField w))
  else if opcOf w = 0x04 then .command (.mpow (rdField w) (rs1Field w) (rs2Field w) (rmField w))
  else if opcOf w = 0x05 then
    if rmField w ≠ 0 then .illegal .unusedRm
    else .command (.mrt (rdField w) (rs1Field w) (rs2Field w))
  else if opcOf w = 0x06 then
    if rs2Field w ≠ 0 then .illegal .unusedRs2
    else .command (.minv (rdField w) (rs1Field w) (rmField w))
  else if opcOf w = 0x07 then
    if rmField w ≠ 0 then .illegal .unusedRm
    else .command (.gcd (rdField w) (rs1Field w) (rs2Field w))
  else .illegal .opcode

/-- Format C (30_encoding.md R90): `00 m t s d oo` read as hex digits, the first two of them RSV. -/
def formatC (opc : Nat) (rd rs1 rs2 rm : RegNum) : Word :=
  BitVec.ofNat 32 (opc + 2 ^ 8 * rd.val + 2 ^ 12 * rs1.val + 2 ^ 16 * rs2.val + 2 ^ 20 * rm.val)

/-- The word of a command, by the templates of 30_encoding.md R97; an unused field is 0 (R94). -/
def encode : Instr → Word
  | .madd rd rs1 rs2 rm => formatC 0x01 rd rs1 rs2 rm
  | .msub rd rs1 rs2 rm => formatC 0x02 rd rs1 rs2 rm
  | .mmul rd rs1 rs2 rm => formatC 0x03 rd rs1 rs2 rm
  | .mpow rd rs1 rs2 rm => formatC 0x04 rd rs1 rs2 rm
  | .mrt rd rs1 rs2 => formatC 0x05 rd rs1 rs2 0
  | .minv rd rs1 rm => formatC 0x06 rd rs1 0 rm
  | .gcd rd rs1 rs2 => formatC 0x07 rd rs1 rs2 0

/-- One row of 30_encoding.md R97's table: its match word and its mask. -/
structure OpcodeRow where
  pattern : Word
  mask : Word
  deriving DecidableEq, Repr

/-- "A word w is command K if and only if (w AND mask_K) == match_K" (30_encoding.md R97). -/
def OpcodeRow.covers (row : OpcodeRow) (w : Word) : Bool := w &&& row.mask == row.pattern

/-- The row of a command's mnemonic, as 30_encoding.md R97 gives it. -/
def Instr.row : Instr → OpcodeRow
  | .madd .. => ⟨0x00000001, 0xFF0000FF⟩
  | .msub .. => ⟨0x00000002, 0xFF0000FF⟩
  | .mmul .. => ⟨0x00000003, 0xFF0000FF⟩
  | .mpow .. => ⟨0x00000004, 0xFF0000FF⟩
  | .mrt .. => ⟨0x00000005, 0xFFF000FF⟩
  | .minv .. => ⟨0x00000006, 0xFF0F00FF⟩
  | .gcd .. => ⟨0x00000007, 0xFFF000FF⟩

/-- The seven rows, in the table's order. -/
def opcodeRows : List OpcodeRow :=
  [⟨0x00000001, 0xFF0000FF⟩, ⟨0x00000002, 0xFF0000FF⟩, ⟨0x00000003, 0xFF0000FF⟩, ⟨0x00000004, 0xFF0000FF⟩,
   ⟨0x00000005, 0xFFF000FF⟩, ⟨0x00000006, 0xFF0F00FF⟩, ⟨0x00000007, 0xFFF000FF⟩]

/-- A command is one 32-bit word, written by one bus write (30_encoding.md R90, R100).  `nbits` bits of
`w` are given, bit 0 the least significant; bits above them are 0, and a word of more than 32 bits is no
command. -/
def tableWord (nbits w : Nat) : Option Word :=
  if w % 2 ^ nbits < 2 ^ 32 then some (BitVec.ofNat 32 (w % 2 ^ nbits)) else none

/-- The command the decoder reads from the instruction bits `w` of an opcode-table row. -/
def decodeTableWord (nbits w : Nat) : Option Instr :=
  match tableWord nbits w with
  | none => none
  | some v =>
    match decode v with
    | .command i => some i
    | .illegal _ => none

end Sys2Proof
end

