-- ==== Sys2Proof/Machine/Work.lean ====
section
/-! DEFINITION. The hidden working state of the units (10_state.md R33).

The host cannot address any of it.  Its types stand apart from State because Config's free value after
a reset is one of them. -/

namespace Sys2Proof.Machine

/-- The modular_multiplier's registers (41_modular_multiplier.md R130). -/
structure MulWork where
  acc : Word
  xx : Word
  yy : Word
  deriving DecidableEq, Repr, Inhabited

/-- The modular_exponentiation_engine's registers (42_modular_exponentiation.md R140). -/
structure PowWork where
  r : Word
  b : Word
  e : Word
  deriving DecidableEq, Repr, Inhabited

/-- The extended_gcd_unit's registers for MINV: remainders are Words, coefficients signed integers
(44_extended_gcd.md R170). -/
structure InvWork where
  r1 : Word
  r2 : Word
  t1 : Int
  t2 : Int
  deriving DecidableEq, Repr, Inhabited

/-- The extended_gcd_unit's pair for GCD (44_extended_gcd.md R180). -/
structure GcdWork where
  u : Word
  v : Word
  deriving DecidableEq, Repr, Inhabited

/-- The Miller-Rabin controller's state (10_state.md R33): the odd part `d` and the exponent `twos` of
c - 1 = d * 2^twos, the rounds remaining, the current base and the current y.  `draw` is the Word a
DrawRand has returned and whose round has not run yet (43_miller_rabin.md R151; DEDUCED, log entry 12):
it tells the continuation after a RAND write from the command's first CORE step. -/
structure MrWork where
  d : Word
  twos : Nat
  left : Word
  base : Word
  y : Word
  draw : Option Word
  deriving DecidableEq, Repr, Inhabited

/-- All hidden working state: the operands latched at acceptance (10_state.md R35) and the units'. -/
structure Work where
  opA : Word
  opB : Word
  opM : Word
  mul : MulWork
  pow : PowWork
  inv : InvWork
  gcd : GcdWork
  mr : MrWork
  deriving DecidableEq, Repr, Inhabited

end Sys2Proof.Machine
end

