-- ==== Sys2Proof/Config.lean ====
section
/-! DEFINITION. What the platform fixes, and the free values.

None of the opaque constants has a body: no proof can see a value of one. -/

namespace Sys2Proof.Config

/-- The number of the 256-byte block of the host bus that holds the register window.  20_memory.md R65:
CORE_BASE is a platform parameter, OPEN, 256-byte aligned (log entry 8). -/
opaque coreBlock : Nat

/-- CORE_BASE (00_scope.md R9, 20_memory.md R65), a multiple of 256 by its form. -/
def coreBase : Nat := 256 * coreBlock

/-- The free Words: the n-th is what the machine yields where the spec says UNSPECIFIED, for a host read
of x[i] while BUSY (10_state.md R40) and for x[i] after a hardware reset during a run (10_state.md R21).
Log entries 3 and 4. -/
opaque freeWord : Nat → Word

/-- The free working states: what the hidden state holds after a reset or an abort
(10_state.md R33, 70_reset_and_hazards.md R240).  Log entry 3. -/
opaque freeWork : Nat → Machine.Work

end Sys2Proof.Config
end

