-- ==== Sys2Proof/Machine/State.lean ====
section
/-! DEFINITION. The machine's state, the reasons a step can stop, and the state after reset
(10_state.md, 60_exceptions.md R229, 70_reset_and_hazards.md R240). -/

namespace Sys2Proof.Machine

/-- The sequencer's phase (10_state.md R33).  BUSY and RNEED are computed from it. -/
inductive Phase where
  | idle
  | exec
  | waitRand
  deriving DecidableEq, Repr

/-- The error codes the CORE produces (60_exceptions.md R210).  Codes 3 to 15 are "reserved and never
produced", so no constructor stands for them (DEDUCED, log entry 13). -/
inductive ECode where
  /-- 0 -/
  | none
  /-- 1 -/
  | illegal
  /-- 2 -/
  | range
  deriving DecidableEq, Repr

/-- What a host access does: `MemRead` or `MemWrite` (00_scope.md R12). -/
inductive BusOp where
  | read
  | write (data : Word)
  deriving DecidableEq, Repr

/-- One access of the host: its byte address on the host bus, its size in bytes, and what it does.  Only
size 4 is legal (20_memory.md R64); the other sizes can be written down so that the model can stop on
them. -/
structure Access where
  addr : Nat
  size : Nat
  op : BusOp
  deriving DecidableEq, Repr

/-- One turn of the run (10_state.md R42; rst: 60_exceptions.md R229).  The order of host steps and CORE
steps is open, so State holds a list of turns and statements quantify over it (log entry 5). -/
inductive Turn where
  /-- the host makes one bus access -/
  | host (a : Access)
  /-- the CORE takes one step -/
  | core
  /-- the rst port changes to this level -/
  | rst (level : Bool)
  deriving DecidableEq, Repr

/-- The bus target's OK response to the last host access (60_exceptions.md R229).  ERROR is no value of
it: an access that draws it is a fault of the host step (20_memory.md R64).  Log entry 7. -/
inductive Response where
  | none
  | written
  | read (data : Word)
  deriving DecidableEq, Repr

/-- Everything the spec gives the machine.  INVENTORY.md lists each field with its rule. -/
structure State where
  /-- the general registers x[0] to x[15] (10_state.md R20) -/
  x : Vector Word 16
  /-- each register's written/unwritten mark (10_state.md R21, R42) -/
  written : Vector Bool 16
  /-- CTRL.IE_DONE (10_state.md R26) -/
  ieDone : Bool
  /-- CTRL.IE_RAND (10_state.md R26) -/
  ieRand : Bool
  /-- STATUS.DONE (10_state.md R27) -/
  done : Bool
  /-- STATUS.ERR (10_state.md R27) -/
  err : Bool
  /-- STATUS.COLL (10_state.md R27) -/
  coll : Bool
  /-- STATUS.ECODE (10_state.md R27, 60_exceptions.md R210) -/
  ecode : ECode
  /-- the last accepted command word (10_state.md R29, R33) -/
  cmdLatch : Word
  /-- the sequencer's phase (10_state.md R33) -/
  phase : Phase
  /-- the latched operands and the units' hidden state (10_state.md R33) -/
  work : Work
  /-- the level of the rst port (60_exceptions.md R229) -/
  rst : Bool
  /-- the bus target's last response (60_exceptions.md R229) -/
  resp : Response
  /-- the model's own: how many free values have been taken (log entry 4) -/
  freeCtr : Nat
  /-- the model's own: the turns still to come (log entry 5) -/
  turns : List Turn
  deriving DecidableEq, Repr

/-- Why a step stops with a fault. -/
inductive Fault where
  /-- Raised by `hostAccess` on a host access inside the window that is not a 32-bit access at a
  4-aligned address.  20_memory.md R64: "A model makes such an access a fault of the host step".  Safe:
  the hardware answers ERROR and goes on with no state changed (log entry 9). -/
  | busError
  deriving DecidableEq, Repr

/-- Why a step has no meaning. -/
inductive Refusal where
  /-- Raised only by an arm of `exec` for a command that has no meaning yet; no arm raises it.  Safe. -/
  | notModelled (mnemonic : String)
  /-- Raised by `hostAccess` on an address outside the 256-byte window: "not an access to the CORE"
  (20_memory.md R65).  Safe: what it does is the platform's business (log entry 9). -/
  | outsideWindow
  /-- Raised by `hostAccess` while rst is asserted: "host accesses are not served"
  (70_reset_and_hazards.md R241).  Safe (log entry 9). -/
  | inReset
  deriving DecidableEq, Repr

/-- The hidden working state right after reset.  The spec calls it unspecified and never read before it
is written (10_state.md R33); DESIGN CHOICE zeros, log entry 2. -/
def Work.reset : Work where
  opA := 0
  opB := 0
  opM := 0
  mul := ⟨0, 0, 0⟩
  pow := ⟨0, 0, 0⟩
  inv := ⟨0, 0, 0, 0⟩
  gcd := ⟨0, 0⟩
  mr := ⟨0, 0, 0, 0, 0, none⟩

/-- The machine right after hardware reset (70_reset_and_hazards.md R240), rst deasserted again.  The
spec gives x[0] to x[15] no value: DESIGN CHOICE 0, log entry 1.  No turn is listed: nothing of the
outside world is known yet (log entry 5). -/
def State.reset : State where
  x := Vector.replicate 16 0
  written := Vector.replicate 16 false
  ieDone := false
  ieRand := false
  done := false
  err := false
  coll := false
  ecode := .none
  cmdLatch := 0
  phase := .idle
  work := Work.reset
  rst := false
  resp := .none
  freeCtr := 0
  turns := []

end Sys2Proof.Machine
end

