-- ==== Sys2Proof/Machine/Flags.lean ====
section
/-! DEFINITION. STATUS, CTRL and irq: what the host reads in them and what its writes do to them
(10_state.md R26, R27; 60_exceptions.md R220). -/

namespace Sys2Proof.Machine

/-- A Word that holds one bit, at place `n` (00_scope.md R10). -/
def bitAt (b : Bool) (n : Nat) : Word := (BitVec.ofBool b).setWidth 32 <<< n

/-- ECODE's number (60_exceptions.md R210). -/
def ECode.code : ECode → Word
  | .none => 0
  | .illegal => 1
  | .range => 2

/-- STATUS.BUSY = (phase != IDLE) (10_state.md R33). -/
def State.busy (s : State) : Bool := s.phase != .idle

/-- STATUS.RNEED = (phase == WAIT_RAND) (10_state.md R33). -/
def State.rneed (s : State) : Bool := s.phase == .waitRand

/-- STATUS as the host reads it; reserved bits read 0 (10_state.md R27). -/
def State.statusWord (s : State) : Word :=
  bitAt s.busy 0 ||| bitAt s.done 1 ||| bitAt s.err 2 ||| bitAt s.rneed 3 ||| bitAt s.coll 4
    ||| s.ecode.code <<< 8

/-- CTRL as the host reads it; SRST and the reserved bits read 0 (10_state.md R26). -/
def State.ctrlWord (s : State) : Word := bitAt s.ieDone 0 ||| bitAt s.ieRand 1

/-- The interrupt output (60_exceptions.md R220). -/
def State.irq (s : State) : Bool := (s.done && s.ieDone) || (s.rneed && s.ieRand)

/-- A write to CTRL sets the enables from bits 0 and 1 (10_state.md R26). -/
def State.setEnables (s : State) (v : Word) : State :=
  { s with ieDone := v.getLsbD 0, ieRand := v.getLsbD 1 }

/-- A write to STATUS: DONE and COLL are write-1-to-clear, every other bit is ignored
(10_state.md R27, R28). -/
def State.ackStatus (s : State) (v : Word) : State :=
  { s with done := s.done && !v.getLsbD 1, coll := s.coll && !v.getLsbD 4 }

/-- A host write was dropped: COLL is set and nothing else (60_exceptions.md R215). -/
def State.collide (s : State) : State := { s with coll := true }

/-- DONE, ERR and ECODE are cleared at acceptance; COLL is not (10_state.md R35). -/
def State.clearReport (s : State) : State := { s with done := false, err := false, ecode := .none }

end Sys2Proof.Machine
end

