-- ==== Sys2Proof/Machine/Ops.lean ====
section
/-! DEFINITION. The named operations: registers, the two ways a command ends, the draw request, the
resets.

The CORE has no trap, vector or saved state: an error completion is its whole exception entry
(60_exceptions.md R214), and there is no return from it but the host's acknowledgement, a write to
STATUS (R221, `State.ackStatus`), or the next command (`State.clearReport`). -/

namespace Sys2Proof.Machine

/-- x[i] (00_scope.md R12).  Every register reads as the Word it holds; none is hardwired
(10_state.md R20).  An unwritten one reads too (log entry 1). -/
def State.reg (s : State) (i : RegNum) : Word := s.x[i.val]

/-- x[i]'s written mark (10_state.md R21). -/
def State.marked (s : State) (i : RegNum) : Bool := s.written[i.val]

/-- x[i] <- v; the register is written from now on (10_state.md R21). -/
def State.setReg (s : State) (i : RegNum) (v : Word) : State :=
  { s with x := s.x.set i.val v, written := s.written.set i.val true }

/-- `complete(rd, v)`: a command ends without error (10_state.md R37). -/
def State.complete (s : State) (rd : RegNum) (v : Word) : State :=
  { s.setReg rd v with done := true, err := false, ecode := .none, phase := .idle }

/-- `raise ILLEGAL(w)` and `raise RANGE(w)`: the one error entry (60_exceptions.md R214).  cmd_latch keeps
the word, no register is written and no draw consumed. -/
def State.raise (s : State) (code : ECode) : State :=
  { s with done := true, err := true, ecode := code, phase := .idle }

/-- The first half of `DrawRand()`: the CORE asks for a draw (43_miller_rabin.md R151). -/
def State.requestDraw (s : State) : State := { s with phase := .waitRand }

/-- The second half of `DrawRand()`: the host's RAND write ends the wait and hands over its Word
(43_miller_rabin.md R151). -/
def State.giveDraw (s : State) (r : Word) : State :=
  { s with phase := .exec, work := { s.work with mr := { s.work.mr with draw := some r } } }

/-- Soft reset by a CTRL write with bit 31 set (70_reset_and_hazards.md R242), but for the enables, which
the same write sets.  Registers keep values and marks; the aborted command's hidden state is unspecified
(10_state.md R33), a free value (log entry 3). -/
def State.softReset (s : State) : State :=
  { s with
    phase := .idle, cmdLatch := 0, done := false, err := false, coll := false, ecode := .none
    work := Config.freeWork s.freeCtr, freeCtr := s.freeCtr + 1 }

/-- Hardware reset (70_reset_and_hazards.md R240): every item of its table, and no other.  x[0] to x[15]
hold unspecified Words, marked unwritten: free values (log entry 3). -/
def State.hardReset (s : State) : State :=
  { s with
    x := Vector.ofFn fun i : Fin 16 => Config.freeWord (s.freeCtr + i.val)
    written := Vector.replicate 16 false
    ieDone := false, ieRand := false
    done := false, err := false, coll := false, ecode := .none
    cmdLatch := 0, phase := .idle
    work := Config.freeWork s.freeCtr
    freeCtr := s.freeCtr + 16 }

/-- The rst port changes level: asserting it is a hardware reset (60_exceptions.md R229,
70_reset_and_hazards.md R240), releasing it changes nothing else (log entry 10). -/
def State.rstEdge (s : State) (level : Bool) : State :=
  if level then { s.hardReset with rst := true } else { s with rst := false }

end Sys2Proof.Machine
end

