-- ==== Sys2Proof/Machine/Operands.lean ====
section
/-! DEFINITION. The operand form.  There is one: a 4-bit register field that selects x[field]
(30_encoding.md R91).  Operands are read once, at acceptance (10_state.md R35). -/

namespace Sys2Proof.Machine

/-- RD, used by all seven commands (10_state.md R22). -/
def rdOf : Instr → RegNum
  | .madd rd _ _ _ | .msub rd _ _ _ | .mmul rd _ _ _ | .mpow rd _ _ _ => rd
  | .mrt rd _ _ | .minv rd _ _ | .gcd rd _ _ => rd

/-- RS1, used by all seven commands (10_state.md R22). -/
def rs1Of : Instr → RegNum
  | .madd _ rs1 _ _ | .msub _ rs1 _ _ | .mmul _ rs1 _ _ | .mpow _ rs1 _ _ => rs1
  | .mrt _ rs1 _ | .minv _ rs1 _ | .gcd _ rs1 _ => rs1

/-- RS2, where the command uses it (30_encoding.md R97). -/
def rs2Of : Instr → Option RegNum
  | .madd _ _ rs2 _ | .msub _ _ rs2 _ | .mmul _ _ rs2 _ | .mpow _ _ rs2 _ => some rs2
  | .mrt _ _ rs2 | .gcd _ _ rs2 => some rs2
  | .minv .. => none

/-- RM, where the command uses it (30_encoding.md R97). -/
def rmOf : Instr → Option RegNum
  | .madd _ _ _ rm | .msub _ _ _ rm | .mmul _ _ _ rm | .mpow _ _ _ rm => some rm
  | .minv _ _ rm => some rm
  | .mrt .. | .gcd .. => none

/-- What a field latches: the register's value, or nothing where the command does not use the field
(10_state.md R33, R35). -/
def State.latched (s : State) (field : Option RegNum) (old : Word) : Word :=
  match field with
  | some r => s.reg r
  | none => old

/-- The operand latch of acceptance (10_state.md R35). -/
def State.latchOperands (s : State) (i : Instr) : State :=
  { s with
    work := { s.work with
      opA := s.reg (rs1Of i)
      opB := s.latched (rs2Of i) s.work.opB
      opM := s.latched (rmOf i) s.work.opM } }

end Sys2Proof.Machine
end

