-- ==== Sys2Proof/Machine/Bus.lean ====
section
/-! DEFINITION. The register window: one host access (20_memory.md; 10_state.md R26 to R41). -/

namespace Sys2Proof.Machine

/-- The offset of a byte address in the 256-byte window at CORE_BASE, if it lies there
(20_memory.md R60, R65). -/
def windowOffset (addr : Nat) : Option Nat :=
  if Config.coreBase ≤ addr ∧ addr < Config.coreBase + 256 then some (addr - Config.coreBase) else none

/-- What stands at an offset of the window (20_memory.md R63). -/
inductive Target where
  | ctrl
  | status
  | cmd
  | rand
  | reg (i : RegNum)
  | reserved
  deriving DecidableEq, Repr

/-- The address map (20_memory.md R63). -/
def target (off : Nat) : Target :=
  if off = 0x000 then .ctrl
  else if off = 0x004 then .status
  else if off = 0x008 then .cmd
  else if off = 0x00C then .rand
  else if 0x040 ≤ off ∧ off < 0x080 then .reg (Fin.ofNat 16 ((off - 0x040) / 4))
  else .reserved

/-- Where the map puts a register: the offset of x[i] is 0x040 + 4*i (20_memory.md R63). -/
def regOffset (i : RegNum) : Nat := 0x040 + 4 * i.val

/-- Acceptance of a command word (10_state.md R35): latched, the report cleared, the operands the command
uses read; no operand for an illegal word (30_encoding.md R96).  The Miller-Rabin controller starts with
no draw in hand. -/
def State.accept (s : State) (w : Word) : State :=
  let s' := match decode w with
    | .command i => s.latchOperands i
    | .illegal _ => s
  { s'.clearReport with
    cmdLatch := w, phase := .exec
    work := { s'.work with mr := { s'.work.mr with draw := none } } }

/-- A host read returns a Word to the host (60_exceptions.md R229). -/
def State.answer (s : State) (v : Word) : State := { s with resp := .read v }

/-- A host read (10_state.md R26 to R31, R41).  No read changes any state of the CORE; a read of x[i]
while a command is in execution returns an unspecified Word (10_state.md R40), a free value. -/
def State.hostRead (s : State) : Target → State
  | .ctrl => s.answer s.ctrlWord
  | .status => s.answer s.statusWord
  | .cmd => s.answer s.cmdLatch
  | .rand => s.answer 0
  | .reserved => s.answer 0
  | .reg i =>
    match s.phase with
    | .idle => s.answer (s.reg i)
    | .exec | .waitRand => { s.answer (Config.freeWord s.freeCtr) with freeCtr := s.freeCtr + 1 }

/-- A write to CTRL (10_state.md R26): never dropped; with bit 31 set a soft reset comes first and the
enables of the same write are kept (70_reset_and_hazards.md R242). -/
def State.writeCtrl (s : State) (v : Word) : State :=
  (if v.getLsbD 31 then s.softReset else s).setEnables v

/-- A write to CMD: issued while IDLE (10_state.md R29, R35), dropped otherwise (R39). -/
def State.writeCmd (s : State) (v : Word) : State :=
  match s.phase with
  | .idle => s.accept v
  | .exec | .waitRand => s.collide

/-- A write to RAND: a draw while RNEED is 1 (43_miller_rabin.md R151), dropped otherwise (R152). -/
def State.writeRand (s : State) (v : Word) : State :=
  match s.phase with
  | .waitRand => s.giveDraw v
  | .idle | .exec => s.collide

/-- A write to x[i]: stored while IDLE, dropped otherwise (10_state.md R40). -/
def State.writeReg (s : State) (i : RegNum) (v : Word) : State :=
  match s.phase with
  | .idle => s.setReg i v
  | .exec | .waitRand => s.collide

/-- A host write (20_memory.md R67): reserved offsets ignore it and set no COLL (10_state.md R31). -/
def State.hostWrite (s : State) (v : Word) (t : Target) : State :=
  let s' := match t with
    | .ctrl => s.writeCtrl v
    | .status => s.ackStatus v
    | .cmd => s.writeCmd v
    | .rand => s.writeRand v
    | .reg i => s.writeReg i v
    | .reserved => s
  { s' with resp := .written }

/-- One host access.  Outside the window it is no access to the CORE (20_memory.md R65); while rst is
asserted it is not served (70_reset_and_hazards.md R241); of another size than 4 bytes or misaligned it is
a fault (20_memory.md R64); else it is one atomic read or write (R66). -/
def hostAccess (a : Access) (s : State) : Host.Outcome State Fault Refusal :=
  match windowOffset a.addr with
  | none => .refused .outsideWindow
  | some off =>
    if s.rst then .refused .inReset
    else if a.size ≠ 4 ∨ off % 4 ≠ 0 then .fault .busError
    else
      match a.op with
      | .read => .next (s.hostRead (target off))
      | .write v => .next (s.hostWrite v (target off))

/-- The state in which the very next step runs the command word v: v accepted as from IDLE
(10_state.md R35), rst released, and the CORE's turn next (log entry 6). -/
def State.fetchNext (s : State) (v : Word) : State :=
  { s.accept v with rst := false, turns := .core :: s.turns }

end Sys2Proof.Machine
end

