-- ==== Sys2Proof/Machine/Adder.lean ====
section
/-! DEFINITION. The modular_adder: MADD and MSUB (40_modular_adder.md). -/

namespace Sys2Proof.Machine

/-- `ModAdd(a, b, '+', mod)` as the datapath of 40_modular_adder.md R110: the 32-bit sum, its carry seen as
s < a, and one correction.  Meant for a, b < m. -/
def modAdd (a b m : Word) : Word :=
  if a + b < a then a - (m - b)
  else if m ≤ a + b then a + b - m
  else a + b

/-- `ModAdd(a, b, '-', mod)` (40_modular_adder.md R112).  Meant for a, b < m. -/
def modSub (a b m : Word) : Word :=
  if b ≤ a then a - b else m - (b - a)

/-- MADD (40_modular_adder.md R111): RANGE unless a < m and b < m, else x[rd] <- (a + b) mod m. -/
def execMadd (rd : RegNum) (s : State) : Host.Outcome State Fault Refusal :=
  if s.work.opA < s.work.opM ∧ s.work.opB < s.work.opM then
    .next (s.complete rd (modAdd s.work.opA s.work.opB s.work.opM))
  else .next (s.raise .range)

/-- MSUB (40_modular_adder.md R113): RANGE unless a < m and b < m, else x[rd] <- (a - b) mod m. -/
def execMsub (rd : RegNum) (s : State) : Host.Outcome State Fault Refusal :=
  if s.work.opA < s.work.opM ∧ s.work.opB < s.work.opM then
    .next (s.complete rd (modSub s.work.opA s.work.opB s.work.opM))
  else .next (s.raise .range)

end Sys2Proof.Machine
end

