-- ==== Sys2Proof/Machine/Multiplier.lean ====
section
/-! DEFINITION. The modular_multiplier: MMUL (41_modular_multiplier.md). -/

namespace Sys2Proof.Machine

/-- One pass of the double-and-add loop (41_modular_multiplier.md R130). -/
def mulPass (m : Word) (w : MulWork) : MulWork where
  acc := if w.yy.getLsbD 0 then modAdd w.acc w.xx m else w.acc
  xx := modAdd w.xx w.xx m
  yy := w.yy >>> 1

/-- `while yy != 0` (41_modular_multiplier.md R130), for at most the given number of passes. -/
def mulLoop (m : Word) : Nat → MulWork → MulWork
  | 0, w => w
  | n + 1, w => if w.yy = 0 then w else mulLoop m n (mulPass m w)

/-- The unit's state when a multiplication is over.  A Word y takes at most 32 passes
(41_modular_multiplier.md R130: bitlen(y) <= 32). -/
def mulRun (x y m : Word) : MulWork := mulLoop m 32 ⟨0, x, y⟩

/-- `ModMul(x, y, mod)` (41_modular_multiplier.md R130).  Meant for m >= 2 and x < m. -/
def modMul (x y m : Word) : Word := (mulRun x y m).acc

/-- The multiplier's registers, as a run left them. -/
def State.setMul (s : State) (w : MulWork) : State := { s with work := { s.work with mul := w } }

/-- MMUL (41_modular_multiplier.md R131): RANGE if m < 2 or x >= m, else x[rd] <- (x * y) mod m. -/
def execMmul (rd : RegNum) (s : State) : Host.Outcome State Fault Refusal :=
  if s.work.opM < 2 ∨ s.work.opM ≤ s.work.opA then .next (s.raise .range)
  else
    .next ((s.setMul (mulRun s.work.opA s.work.opB s.work.opM)).complete rd
      (modMul s.work.opA s.work.opB s.work.opM))

end Sys2Proof.Machine
end

