-- ==== Sys2Proof/Machine/Exponentiation.lean ====
section
/-! DEFINITION. The modular_exponentiation_engine: MPOW (42_modular_exponentiation.md). -/

namespace Sys2Proof.Machine

/-- The engine's registers and those of the multiplier it drives. -/
structure PowRun where
  pow : PowWork
  mul : MulWork
  deriving DecidableEq, Repr

/-- One pass of square-and-multiply (42_modular_exponentiation.md R140).  The squaring is the pass's last
use of the multiplier. -/
def powPass (m : Word) (w : PowRun) : PowRun where
  pow := {
    r := if w.pow.e.getLsbD 0 then modMul w.pow.r w.pow.b m else w.pow.r
    b := modMul w.pow.b w.pow.b m
    e := w.pow.e >>> 1 }
  mul := mulRun w.pow.b w.pow.b m

/-- `while e != 0` (42_modular_exponentiation.md R140), for at most the given number of passes. -/
def powLoop (m : Word) : Nat → PowRun → PowRun
  | 0, w => w
  | n + 1, w => if w.pow.e = 0 then w else powLoop m n (powPass m w)

/-- The two units' states when an exponentiation is over; `mul` is the multiplier's before it.  At most 32
passes (42_modular_exponentiation.md R140: bitlen(exp) <= 32). -/
def powRun (base exp m : Word) (mul : MulWork) : PowRun := powLoop m 32 ⟨⟨1, base, exp⟩, mul⟩

/-- `ModPow(base, exp, mod)` (42_modular_exponentiation.md R140).  Meant for m >= 2, and base < m where
exp != 0. -/
def modPow (base exp m : Word) : Word := (powRun base exp m ⟨0, 0, 0⟩).pow.r

/-- The engine's and the multiplier's registers, as a run left them. -/
def State.setPow (s : State) (w : PowRun) : State :=
  { s with work := { s.work with pow := w.pow, mul := w.mul } }

/-- MPOW (42_modular_exponentiation.md R141): RANGE if m < 2, or if exp != 0 and base >= m; else
x[rd] <- base^exp mod m. -/
def execMpow (rd : RegNum) (s : State) : Host.Outcome State Fault Refusal :=
  if s.work.opM < 2 then .next (s.raise .range)
  else if s.work.opB ≠ 0 ∧ s.work.opM ≤ s.work.opA then .next (s.raise .range)
  else
    .next ((s.setPow (powRun s.work.opA s.work.opB s.work.opM s.work.mul)).complete rd
      (modPow s.work.opA s.work.opB s.work.opM))

end Sys2Proof.Machine
end

