-- ==== Sys2Proof/Machine/ExtendedGcd.lean ====
section
/-! DEFINITION. The extended_gcd_unit: MINV and GCD (44_extended_gcd.md).

The spec's "accumulated subtraction" computes q = r1 div r2 and r = r1 mod r2 (44_extended_gcd.md R170,
R180); the loops here divide (log entry 14).  Sys2Proof/Laws/ExtendedGcd.lean proves the two equal. -/

namespace Sys2Proof.Machine

/-- More passes than Euclid's algorithm takes on Words: every two passes halve the smaller one. -/
def euclidPasses : Nat := 65

/-- One pass of the extended Euclidean loop (44_extended_gcd.md R170). -/
def invPass (w : InvWork) : InvWork where
  r1 := w.r2
  r2 := w.r1 % w.r2
  t1 := w.t2
  t2 := w.t1 - (w.r1.toNat / w.r2.toNat : Nat) * w.t2

/-- `while r2 != 0` (44_extended_gcd.md R170), for at most the given number of passes. -/
def invLoop : Nat → InvWork → InvWork
  | 0, w => w
  | n + 1, w => if w.r2 = 0 then w else invLoop n (invPass w)

/-- The unit's state when an inversion is over: r1 = m, r2 = a, t1 = 0, t2 = 1 at its start
(44_extended_gcd.md R170). -/
def invRun (a m : Word) : InvWork := invLoop euclidPasses ⟨m, a, 0, 1⟩

/-- `ModInv(a, m)` (44_extended_gcd.md R170): t1 mod m, the non-negative remainder, or the sentinel 0.
Meant for m >= 2. -/
def modInv (a m : Word) : Word :=
  if (invRun a m).r1 = 1 then BitVec.ofInt 32 ((invRun a m).t1 % (m.toNat : Int)) else 0

/-- One pass of the plain loop (44_extended_gcd.md R180). -/
def gcdPass (w : GcdWork) : GcdWork where
  u := w.v
  v := w.u % w.v

/-- `while v != 0` (44_extended_gcd.md R180), for at most the given number of passes. -/
def gcdLoop : Nat → GcdWork → GcdWork
  | 0, w => w
  | n + 1, w => if w.v = 0 then w else gcdLoop n (gcdPass w)

/-- The unit's state when a GCD is over (44_extended_gcd.md R180). -/
def gcdRun (a b : Word) : GcdWork := gcdLoop euclidPasses ⟨a, b⟩

/-- `gcd(a, b)` as the unit computes it (44_extended_gcd.md R180). -/
def gcdWord (a b : Word) : Word := (gcdRun a b).u

/-- MINV (44_extended_gcd.md R171): RANGE if m < 2, else x[rd] <- ModInv(a, m); the sentinel 0 is a
normal completion (R173). -/
def execMinv (rd : RegNum) (s : State) : Host.Outcome State Fault Refusal :=
  if s.work.opM < 2 then .next (s.raise .range)
  else
    .next (State.complete { s with work := { s.work with inv := invRun s.work.opA s.work.opM } } rd
      (modInv s.work.opA s.work.opM))

/-- GCD (44_extended_gcd.md R181): every operand value is admissible. -/
def execGcd (rd : RegNum) (s : State) : Host.Outcome State Fault Refusal :=
  .next (State.complete { s with work := { s.work with gcd := gcdRun s.work.opA s.work.opB } } rd
    (gcdWord s.work.opA s.work.opB))

end Sys2Proof.Machine
end

