-- ==== Sys2Proof/Machine/MillerRabin.lean ====
section
/-! DEFINITION. The miller_rabin_test_control: MRT (43_miller_rabin.md).

10_state.md R42 cuts the command into CORE steps: the first step, up to the first draw request or to a
completion without draw; then one step per draw, from the RAND write to the next request or to
completion.  `execMrt` is either, by whether a draw is in hand (log entry 12). -/

namespace Sys2Proof.Machine

/-- `while d[0] == 0: d <- d >> 1 ; s <- s + 1` (43_miller_rabin.md R156), for at most the given number of
passes. -/
def oddPartLoop : Nat → Word → Nat → Word × Nat
  | 0, d, e => (d, e)
  | n + 1, d, e => if d.getLsbD 0 then (d, e) else oddPartLoop n (d >>> 1) (e + 1)

/-- c - 1 = d * 2^s with d odd: the pair (d, s) (43_miller_rabin.md R156).  A Word that is not 0 has fewer
than 32 trailing zeros. -/
def oddPart (v : Word) : Word × Nat := oddPartLoop 32 v 0

/-- The base of a round: a = 1 + floor(r * (c - 2) / 2^32), exact (43_miller_rabin.md R154). -/
def baseOf (c r : Word) : Word := BitVec.ofNat 32 (1 + r.toNat * (c.toNat - 2) / 2 ^ 32)

/-- Where a round stands: whether it has passed, its y, and the multiplier's registers. -/
structure RoundRun where
  passed : Bool
  y : Word
  mul : MulWork
  deriving DecidableEq, Repr

/-- `repeat s - 1 times` (43_miller_rabin.md R156): square y; leave with a pass at c - 1, without one
at 1. -/
def squareLoop (c : Word) : Nat → Word → MulWork → RoundRun
  | 0, y, mul => ⟨false, y, mul⟩
  | n + 1, y, _ =>
    if modMul y y c = c - 1 then ⟨true, modMul y y c, mulRun y y c⟩
    else if modMul y y c = 1 then ⟨false, modMul y y c, mulRun y y c⟩
    else squareLoop c n (modMul y y c) (mulRun y y c)

/-- The body of one round after ModPow has given y (43_miller_rabin.md R156). -/
def roundOf (c : Word) (e : Nat) (y : Word) (mul : MulWork) : RoundRun :=
  if y = 1 ∨ y = c - 1 then ⟨true, y, mul⟩ else squareLoop c (e - 1) y mul

/-- Does a round with base a pass (43_miller_rabin.md R156)?  What the hidden registers hold plays no
part. -/
def roundPasses (c d : Word) (e : Nat) (a : Word) : Bool :=
  (roundOf c e (modPow a d c) ⟨0, 0, 0⟩).passed

/-- The controller's registers once d and s are found, with so many rounds to go
(43_miller_rabin.md R156). -/
def State.splitCandidate (s : State) (rounds : Word) : State :=
  { s with
    work := { s.work with
      mr := { s.work.mr with
        d := (oddPart (s.work.opA - 1)).1
        twos := (oddPart (s.work.opA - 1)).2
        left := rounds } } }

/-- The first CORE step of an MRT (43_miller_rabin.md R156): the special cases, then d and s, then the
first draw request unless k is 0. -/
def mrtStart (rd : RegNum) (s : State) : State :=
  if s.work.opA = 2 then s.complete rd 1
  else if s.work.opA < 2 ∨ s.work.opA.getLsbD 0 = false then s.complete rd 0
  else if s.work.opB = 0 then (s.splitCandidate 0).complete rd 1
  else (s.splitCandidate s.work.opB).requestDraw

/-- The round a draw pays for, with every register it leaves (43_miller_rabin.md R154, R156). -/
def State.afterRound (s : State) (r : Word) : State :=
  { s with
    work := { s.work with
      pow := (powRun (baseOf s.work.opA r) s.work.mr.d s.work.opA s.work.mul).pow
      mul := (roundOf s.work.opA s.work.mr.twos (modPow (baseOf s.work.opA r) s.work.mr.d s.work.opA)
        (powRun (baseOf s.work.opA r) s.work.mr.d s.work.opA s.work.mul).mul).mul
      mr := { s.work.mr with
        left := s.work.mr.left - 1
        base := baseOf s.work.opA r
        y := (roundOf s.work.opA s.work.mr.twos (modPow (baseOf s.work.opA r) s.work.mr.d s.work.opA)
          (powRun (baseOf s.work.opA r) s.work.mr.d s.work.opA s.work.mul).mul).y
        draw := none } } }

/-- The continuation after a RAND write of r (10_state.md R42): one round, then 0 if it rejects, 1 if it
was the last, else the next draw request (43_miller_rabin.md R156). -/
def mrtRound (rd : RegNum) (r : Word) (s : State) : State :=
  if roundPasses s.work.opA s.work.mr.d s.work.mr.twos (baseOf s.work.opA r) then
    if s.work.mr.left ≤ 1 then (s.afterRound r).complete rd 1 else (s.afterRound r).requestDraw
  else (s.afterRound r).complete rd 0

/-- MRT (43_miller_rabin.md R155, R156, R158): every operand value is admissible. -/
def execMrt (rd : RegNum) (s : State) : Host.Outcome State Fault Refusal :=
  match s.work.mr.draw with
  | none => .next (mrtStart rd s)
  | some r => .next (mrtRound rd r s)

end Sys2Proof.Machine
end

