-- ==== Sys2Proof/Machine/Dispatch.lean ====
section
/-! DEFINITION. What each command does in phase EXEC: one arm per constructor, one meaning per arm.

The source fields play no part here: their registers were read at acceptance (10_state.md R35), into
opA, opB and opM. -/

namespace Sys2Proof.Machine

def exec (i : Instr) (s : State) : Host.Outcome State Fault Refusal :=
  match i with
  | .madd rd _ _ _ => Sys2Proof.Machine.execMadd rd s
  | .msub rd _ _ _ => Sys2Proof.Machine.execMsub rd s
  | .mmul rd _ _ _ => Sys2Proof.Machine.execMmul rd s
  | .mpow rd _ _ _ => Sys2Proof.Machine.execMpow rd s
  | .mrt rd _ _ => Sys2Proof.Machine.execMrt rd s
  | .minv rd _ _ => Sys2Proof.Machine.execMinv rd s
  | .gcd rd _ _ => Sys2Proof.Machine.execGcd rd s

end Sys2Proof.Machine
end

