-- ==== Sys2Proof/Machine/Sequencer.lean ====
section
/-! DEFINITION. One CORE step (10_state.md R36, R42). -/

namespace Sys2Proof.Machine

/-- A CORE step.  In EXEC the word is checked first, then the command runs (10_state.md R36).  In IDLE
the CORE does nothing (60_exceptions.md R228); in WAIT_RAND it waits (43_miller_rabin.md R153, log
entry 11); under reset it does nothing (70_reset_and_hazards.md R240, log entry 10). -/
def coreStep (s : State) : Host.Outcome State Fault Refusal :=
  if s.rst then .next s
  else
    match s.phase with
    | .idle => .next s
    | .waitRand => .next s
    | .exec =>
      match decode s.cmdLatch with
      | .command i => exec i s
      | .illegal _ => .next (s.raise .illegal)

/-- One turn (10_state.md R42): the one that is due, or a CORE step where none is listed, which is the
sequencer's weak fairness (70_reset_and_hazards.md R256, log entry 5). -/
def takeTurn (s : State) : Host.Outcome State Fault Refusal :=
  match s.turns with
  | [] => coreStep s
  | .core :: ts => coreStep { s with turns := ts }
  | .host a :: ts => hostAccess a { s with turns := ts }
  | .rst level :: ts => .next (State.rstEdge { s with turns := ts } level)

end Sys2Proof.Machine
end

