-- ==== Sys2Proof/Machine/Step.lean ====
section
/-! DEFINITION. The step of the machine, and how a command word is put before it. -/

namespace Sys2Proof.Machine

/-- One step of the machine: one turn. -/
def step (s : State) : Host.Outcome State Fault Refusal := takeTurn s

/-- The state whose very next step runs the command bits `w` (log entry 6).  Commands have 32 bits: a
number that has more changes nothing. -/
def State.withFetchWord (s : State) (nbits w : Nat) : State :=
  match tableWord nbits w with
  | some v => s.fetchNext v
  | none => s

end Sys2Proof.Machine
end

