-- ==== Sys2Proof/Machine/Assembler.lean ====
section
/-! DEFINITION. The assembler's notation (00_scope.md R15, 30_encoding.md R97, R99): a line of text to a
command word. -/

namespace Sys2Proof.Machine

/-- The registers of a well-formed operand list. -/
def regAt (c : SourceCommand) (n : Nat) : RegNum := Fin.ofNat 16 (c.operands.getD n 0)

/-- The one command a well-formed source command stands for (30_encoding.md R97, R99): the
pseudo-instructions repeat their source register. -/
def expand (c : SourceCommand) : Instr :=
  match c.mnemonic with
  | .madd => .madd (regAt c 0) (regAt c 1) (regAt c 2) (regAt c 3)
  | .msub => .msub (regAt c 0) (regAt c 1) (regAt c 2) (regAt c 3)
  | .mmul => .mmul (regAt c 0) (regAt c 1) (regAt c 2) (regAt c 3)
  | .mpow => .mpow (regAt c 0) (regAt c 1) (regAt c 2) (regAt c 3)
  | .mrt => .mrt (regAt c 0) (regAt c 1) (regAt c 2)
  | .minv => .minv (regAt c 0) (regAt c 1) (regAt c 2)
  | .gcd => .gcd (regAt c 0) (regAt c 1) (regAt c 2)
  | .mdbl => .madd (regAt c 0) (regAt c 1) (regAt c 1) (regAt c 2)
  | .msqr => .mmul (regAt c 0) (regAt c 1) (regAt c 1) (regAt c 2)
  | .mclr => .msub (regAt c 0) (regAt c 1) (regAt c 1) (regAt c 2)

/-- A source command that fails a check is rejected (30_encoding.md R99). -/
def assemble (c : SourceCommand) : Option Instr := if c.wf then some (expand c) else none

/-- Mnemonics are case-insensitive (30_encoding.md R99): the text is compared in capitals. -/
def mnemonicOf (name : List Char) : Option Mnemonic :=
  if name.map Char.toUpper = "MADD".toList then some .madd
  else if name.map Char.toUpper = "MSUB".toList then some .msub
  else if name.map Char.toUpper = "MMUL".toList then some .mmul
  else if name.map Char.toUpper = "MPOW".toList then some .mpow
  else if name.map Char.toUpper = "MRT".toList then some .mrt
  else if name.map Char.toUpper = "MINV".toList then some .minv
  else if name.map Char.toUpper = "GCD".toList then some .gcd
  else if name.map Char.toUpper = "MDBL".toList then some .mdbl
  else if name.map Char.toUpper = "MSQR".toList then some .msqr
  else if name.map Char.toUpper = "MCLR".toList then some .mclr
  else none

/-- A decimal digit's value. -/
def digitOf (c : Char) : Option Nat :=
  if '0' ≤ c ∧ c ≤ '9' then some (c.toNat - '0'.toNat) else none

/-- A register name: `R` and one digit, or `R` and two digits of which the first is not 0.  Register names
have no other alias (30_encoding.md R99; capitals only: DESIGN CHOICE, log entry 17). -/
def registerOf : List Char → Option Nat
  | ['R', a] => digitOf a
  | ['R', a, b] =>
    match digitOf a, digitOf b with
    | some (p + 1), some q => some (10 * (p + 1) + q)
    | _, _ => none
  | _ => none

/-- Blank characters between the parts of a line (log entry 17). -/
def isBlank (c : Char) : Bool := c == ' ' || c == '\t'

/-- A text without the blanks at its two ends. -/
def trimBlanks (l : List Char) : List Char := ((l.dropWhile isBlank).reverse.dropWhile isBlank).reverse

/-- A text cut at its commas (30_encoding.md R99: "Operands are separated by commas"). -/
def splitCommas : List Char → List (List Char)
  | [] => [[]]
  | c :: cs =>
    match splitCommas cs with
    | [] => [[c]]
    | part :: parts => if c = ',' then [] :: part :: parts else (c :: part) :: parts

/-- A list of parts, each a register name. -/
def registersOf : List (List Char) → Option (List Nat)
  | [] => some []
  | part :: parts =>
    match registerOf (trimBlanks part), registersOf parts with
    | some r, some rs => some (r :: rs)
    | _, _ => none

/-- A line of assembly: a mnemonic, blanks, operands; a comment starts with `;` (30_encoding.md R99). -/
def parseLine (line : List Char) : Option SourceCommand :=
  let body := trimBlanks (line.takeWhile (· ≠ ';'))
  match mnemonicOf (body.takeWhile fun c => !isBlank c),
      registersOf (splitCommas (trimBlanks (body.dropWhile fun c => !isBlank c))) with
  | some m, some rs => some ⟨m, rs⟩
  | _, _ => none

/-- The command word of a line of assembly, or nothing where the assembler rejects it. -/
def assembleLine (line : List Char) : Option Word :=
  match parseLine line with
  | none => none
  | some c => (assemble c).map encode

end Sys2Proof.Machine
end

