-- ==== Sys2Proof/Machine/Block.lean ====
section
/-! DEFINITION. The Block: how the host packs four bytes of a stream into a Word (20_memory.md R61).  The
CORE itself sees only Words. -/

namespace Sys2Proof.Machine

/-- m = b0 * 2^24 + b1 * 2^16 + b2 * 2^8 + b3, big-endian; the missing bytes of a short chunk are 0, on
the right (20_memory.md R61).  A chunk has at most four bytes: bytes after the fourth are not of it. -/
def packBlock (chunk : List Byte) : Word :=
  BitVec.ofNat 32
    ((chunk.getD 0 0).toNat * 2 ^ 24 + (chunk.getD 1 0).toNat * 2 ^ 16 + (chunk.getD 2 0).toNat * 2 ^ 8
      + (chunk.getD 3 0).toNat)

/-- The four big-endian bytes of an output Word (20_memory.md R61). -/
def unpackBlock (c : Word) : List Byte :=
  [c.extractLsb' 24 8, c.extractLsb' 16 8, c.extractLsb' 8 8, c.extractLsb' 0 8]

end Sys2Proof.Machine
end

