-- ==== Sys2Proof/Safety.lean ====
section
/-! DEFINITION. The terms claims use: what a completion, an error and a draw request leave, the invariant,
the host's protocol, the number theory of a Miller-Rabin round. -/

namespace Sys2Proof.Machine

/-- What no command touches when it runs: CTRL, COLL, cmd_latch, the latched operands, and everything
outside the CORE (10_state.md R37: "No other register changes"; 60_exceptions.md R214). -/
structure SameSurroundings (s t : State) : Prop where
  ieDone : t.ieDone = s.ieDone
  ieRand : t.ieRand = s.ieRand
  coll : t.coll = s.coll
  cmdLatch : t.cmdLatch = s.cmdLatch
  opA : t.work.opA = s.work.opA
  opB : t.work.opB = s.work.opB
  opM : t.work.opM = s.work.opM
  rst : t.rst = s.rst
  resp : t.resp = s.resp
  freeCtr : t.freeCtr = s.freeCtr
  turns : t.turns = s.turns

/-- t is what `complete(rd, v)` leaves of s (10_state.md R37): x[rd] is v and written, every other register
and mark is as before, and STATUS reports success.  Only the units' hidden registers are not spoken of. -/
structure Completes (s : State) (rd : RegNum) (v : Word) (t : State) : Prop where
  result : t.reg rd = v
  marked : t.marked rd = true
  otherRegs : ∀ r, r ≠ rd → t.reg r = s.reg r
  otherMarks : ∀ r, r ≠ rd → t.marked r = s.marked r
  done : t.done = true
  err : t.err = false
  ecode : t.ecode = .none
  phase : t.phase = .idle
  surroundings : SameSurroundings s t

/-- t is what `raise` with this code leaves of s (60_exceptions.md R214): no register, mark or hidden
register changes, and STATUS reports the code. -/
structure EndsInError (s : State) (code : ECode) (t : State) : Prop where
  regs : ∀ r, t.reg r = s.reg r
  marks : ∀ r, t.marked r = s.marked r
  done : t.done = true
  err : t.err = true
  ecode : t.ecode = code
  phase : t.phase = .idle
  work : t.work = s.work
  surroundings : SameSurroundings s t

/-- t is s waiting for a draw (43_miller_rabin.md R151): no register, mark or report changes. -/
structure AwaitsDraw (s t : State) : Prop where
  regs : ∀ r, t.reg r = s.reg r
  marks : ∀ r, t.marked r = s.marked r
  done : t.done = s.done
  err : t.err = s.err
  ecode : t.ecode = s.ecode
  phase : t.phase = .waitRand
  noDraw : t.work.mr.draw = none
  surroundings : SameSurroundings s t

/-- A Miller-Rabin test is under way: it waits for a draw or has one in hand. -/
def State.mrRunning (s : State) : Prop :=
  s.phase = .waitRand ∨ (s.phase = .exec ∧ s.work.mr.draw.isSome = true)

/-- What the controller's registers hold while a test is under way (43_miller_rabin.md R156): the
candidate is odd and at least 3, c - 1 = d * 2^s with d odd and s >= 1, and 1 to k rounds remain. -/
structure State.MrOk (s : State) : Prop where
  command : ∃ rd rs1 rs2, decode s.cmdLatch = .command (.mrt rd rs1 rs2)
  odd : s.work.opA.toNat % 2 = 1
  ge : 3 ≤ s.work.opA.toNat
  split : s.work.mr.d.toNat * 2 ^ s.work.mr.twos = s.work.opA.toNat - 1
  oddPart : s.work.mr.d.toNat % 2 = 1
  twosPos : 1 ≤ s.work.mr.twos
  leftPos : 1 ≤ s.work.mr.left.toNat
  leftLe : s.work.mr.left.toNat ≤ s.work.opB.toNat

/-- The invariant of the machine: the three of 10_state.md R27, that no error is reported while a command
is in execution (R35), what a running Miller-Rabin test holds (43_miller_rabin.md R156), and that under
reset no command runs (70_reset_and_hazards.md R240, R241). -/
structure State.Inv (s : State) : Prop where
  busyNotDone : s.busy = true → s.done = false
  busyNoError : s.busy = true → s.err = false
  rneedBusy : s.rneed = true → s.busy = true
  errEcode : s.err = true ↔ s.ecode ≠ .none
  resetIdle : s.rst = true → s.phase = .idle
  noDrawWaiting : s.phase = .waitRand → s.work.mr.draw = none
  test : s.mrRunning → s.MrOk

/-- a is a strong liar or witness of primality for c, with c - 1 = d * 2^s (43_miller_rabin.md R159 (a)):
a^d is 1, or a^(d * 2^j) is c - 1 for some j < s, modulo c. -/
def StrongLiar (c d e a : Nat) : Prop :=
  a ^ d % c = 1 ∨ ∃ j, j < e ∧ a ^ (d * 2 ^ j) % c = c - 1

/-- The base a draw r stands for, on exact integers (43_miller_rabin.md R154). -/
def baseNat (c r : Nat) : Nat := 1 + r * (c - 2) / 2 ^ 32

/-- The host access that a turn makes in the register window: a legal 32-bit write at an offset. -/
def writeAt (off : Nat) (v : Word) : Access := ⟨Config.coreBase + off, 4, .write v⟩

/-- A legal 32-bit read at an offset of the register window. -/
def readAt (off : Nat) : Access := ⟨Config.coreBase + off, 4, .read⟩

/-- The turns of a host that answers every draw request: a CORE step, then for each draw a RAND write and
the CORE step after it. -/
def mrtTurns (draws : List Word) : List Turn :=
  .core :: draws.flatMap fun r => [.host (writeAt 0x00C r), .core]

/-- The host keeps the protocol of 45_host_procedures.md R190 with this access: registers and CMD only
while BUSY is 0, RAND only while RNEED is 1 (70_reset_and_hazards.md R250, R251). -/
def keepsProtocol (s : State) (a : Access) : Prop :=
  ∃ off, windowOffset a.addr = some off ∧ a.size = 4 ∧ off % 4 = 0 ∧
    match target off, a.op with
    | .ctrl, _ => True
    | .status, _ => True
    | .reserved, _ => True
    | .cmd, .read => True
    | .cmd, .write _ => s.busy = false
    | .rand, .read => True
    | .rand, .write _ => s.rneed = true
    | .reg _, _ => s.busy = false

/-- The registers a command word reads at acceptance (10_state.md R35). -/
def operandRegs (w : Word) : List RegNum :=
  match decode w with
  | .command i => rs1Of i :: ((rs2Of i).toList ++ (rmOf i).toList)
  | .illegal _ => []

/-- The access reads a register that nothing has written since the hardware reset.  10_state.md R21 calls
it a fault of the model; this model goes on with the register's value at reset (log entry 1), so a claim
about hardware assumes the negation of this at every step. -/
def readsUnwritten (s : State) (a : Access) : Prop :=
  ∃ off, windowOffset a.addr = some off ∧
    match target off, a.op with
    | .reg i, .read => s.busy = false ∧ s.marked i = false
    | .cmd, .write w => s.busy = false ∧ ∃ r ∈ operandRegs w, s.marked r = false
    | _, _ => False

/-- A safe step: the turn that is due is no host access, or one that keeps the protocol and reads no
unwritten register. -/
def safeStep (s : State) : Prop :=
  match s.turns with
  | .host a :: _ => keepsProtocol s a ∧ ¬ readsUnwritten s a
  | _ => True

/-- Two states that differ in the hidden working state at most (10_state.md R33). -/
def SameVisible (s t : State) : Prop := t = { s with work := t.work }

/-- The hidden registers that the command in execution may still read are the same: its operands
(10_state.md R35) and, for a running Miller-Rabin test, the controller's. -/
structure SameLive (s t : State) : Prop where
  opA : ∀ i, decode s.cmdLatch = .command i → t.work.opA = s.work.opA
  opB : ∀ i, decode s.cmdLatch = .command i → rs2Of i ≠ none → t.work.opB = s.work.opB
  opM : ∀ i, decode s.cmdLatch = .command i → rmOf i ≠ none → t.work.opM = s.work.opM
  draw : t.work.mr.draw = s.work.mr.draw
  d : s.mrRunning → t.work.mr.d = s.work.mr.d
  twos : s.mrRunning → t.work.mr.twos = s.work.mr.twos
  left : s.mrRunning → t.work.mr.left = s.work.mr.left

/-- Two states no host can tell apart: equal but for hidden registers that no rule will read before it
writes them (10_state.md R33). -/
def Indistinguishable (s t : State) : Prop :=
  SameVisible s t ∧ (s.phase ≠ .idle → SameLive s t)

end Sys2Proof.Machine
end

