-- ==== Sys2Proof/Certificates/Slice0/Obligations.lean ====
section
/-! DEFINITION. The statements, one per obligation.  OBLIGATIONS.json says which rule of spec/ each
formalises. -/

open Sys2Proof Sys2Proof.Machine

/-! ## Command words (30_encoding.md) -/

/-- Decode and encode agree: the decoder reads back every command, with every register number in every
field. -/
def Obligations.DecodeOfEncode : Prop := ∀ i : Instr, decode (encode i) = .command i

/-- A command has one word: a word that decodes to a command is that command's encoding. -/
def Obligations.EncodeOfDecode : Prop := ∀ (w : Word) (i : Instr), decode w = .command i → encode i = w

/-- The decoder and the match and mask table agree: a decoded command's own row covers the word, and a
word that some row covers decodes to a command of that row. -/
def Obligations.DecodeAgreesWithMatchAndMask : Prop :=
  ∀ w : Word,
    (∀ i, decode w = .command i → i.row ∈ opcodeRows ∧ i.row.covers w = true) ∧
    (∀ row ∈ opcodeRows, row.covers w = true → ∃ i, decode w = .command i ∧ i.row = row)

/-- Exactly which words are illegal, on the word as a number: OPC is 0 or above 7; or RSV is not 0; or
RM is not 0 in an MRT or a GCD; or RS2 is not 0 in a MINV. -/
def Obligations.IllegalWordsExactly : Prop :=
  ∀ w : Word,
    (∃ why, decode w = .illegal why) ↔
      (w.toNat % 2 ^ 8 = 0 ∨ 8 ≤ w.toNat % 2 ^ 8) ∨ w.toNat / 2 ^ 24 ≠ 0 ∨
        ((w.toNat % 2 ^ 8 = 5 ∨ w.toNat % 2 ^ 8 = 7) ∧ w.toNat / 2 ^ 20 % 2 ^ 4 ≠ 0) ∨
        (w.toNat % 2 ^ 8 = 6 ∧ w.toNat / 2 ^ 16 % 2 ^ 4 ≠ 0)

/-- The worked encodings of 30_encoding.md R102: each line assembles to its word, each word decodes to its
command, and the four illegal words are illegal. -/
def Obligations.WorkedEncodings : Prop :=
  (assembleLine "MADD R3, R1, R2, R4".toList = some 0x00421301 ∧ decode 0x00421301 = .command (.madd 3 1 2 4)) ∧
  (assembleLine "MSUB R3, R1, R2, R4".toList = some 0x00421302 ∧ decode 0x00421302 = .command (.msub 3 1 2 4)) ∧
  (assembleLine "MMUL R5, R0, R3, R1".toList = some 0x00130503 ∧ decode 0x00130503 = .command (.mmul 5 0 3 1)) ∧
  (assembleLine "MPOW R4, R0, R1, R3".toList = some 0x00310404 ∧ decode 0x00310404 = .command (.mpow 4 0 1 3)) ∧
  (assembleLine "MPOW R5, R4, R2, R3".toList = some 0x00324504 ∧ decode 0x00324504 = .command (.mpow 5 4 2 3)) ∧
  (assembleLine "MRT R2, R0, R1".toList = some 0x00010205 ∧ decode 0x00010205 = .command (.mrt 2 0 1)) ∧
  (assembleLine "MINV R3, R0, R1".toList = some 0x00100306 ∧ decode 0x00100306 = .command (.minv 3 0 1)) ∧
  (assembleLine "GCD R2, R0, R1".toList = some 0x00010207 ∧ decode 0x00010207 = .command (.gcd 2 0 1)) ∧
  (assembleLine "MDBL R1, R1, R15".toList = some 0x00F11101 ∧
    assembleLine "MADD R1, R1, R1, R15".toList = some 0x00F11101 ∧
    decode 0x00F11101 = .command (.madd 1 1 1 15)) ∧
  decode 0x00000000 = .illegal .opcode ∧ decode 0x01421301 = .illegal .reservedBits ∧
  decode 0x00110205 = .illegal .unusedRm ∧ decode 0x00120306 = .illegal .unusedRs2

/-- The assembler: the three pseudo-instructions expand to the command 30_encoding.md R99 gives, and a
source command is rejected exactly for its operand count or a register number above 15. -/
def Obligations.PseudoInstructionsExpand : Prop :=
  (∀ rd rs rm : RegNum,
    assemble ⟨.mdbl, [rd.val, rs.val, rm.val]⟩ = some (.madd rd rs rs rm) ∧
    assemble ⟨.msqr, [rd.val, rs.val, rm.val]⟩ = some (.mmul rd rs rs rm) ∧
    assemble ⟨.mclr, [rd.val, rs.val, rm.val]⟩ = some (.msub rd rs rs rm)) ∧
  (∀ c : SourceCommand,
    assemble c = none ↔ c.operands.length ≠ c.mnemonic.arity ∨ ∃ n ∈ c.operands, 16 ≤ n)

/-- The Block (20_memory.md R61): a chunk of four bytes is big-endian, a shorter one is padded with zeros
on the right, and an output Word is its four big-endian bytes, which pack to it again. -/
def Obligations.BlockPacking : Prop :=
  (∀ b0 b1 b2 b3 : Byte,
    (packBlock [b0, b1, b2, b3]).toNat =
      b0.toNat * 2 ^ 24 + b1.toNat * 2 ^ 16 + b2.toNat * 2 ^ 8 + b3.toNat ∧
    unpackBlock (packBlock [b0, b1, b2, b3]) = [b0, b1, b2, b3]) ∧
  (∀ chunk : List Byte, chunk.length < 4 →
    packBlock chunk = packBlock (chunk ++ List.replicate (4 - chunk.length) 0)) ∧
  (∀ c : Word, packBlock (unpackBlock c) = c ∧
    (unpackBlock c).map BitVec.toNat =
      [c.toNat / 2 ^ 24, c.toNat / 2 ^ 16 % 2 ^ 8, c.toNat / 2 ^ 8 % 2 ^ 8, c.toNat % 2 ^ 8]) ∧
  packBlock [0x41, 0x42, 0x43, 0x44] = 0x41424344 ∧ packBlock [0x41, 0x42] = 0x41420000

/-! ## The register window (20_memory.md, 10_state.md) -/

/-- The address map (20_memory.md R63): what stands at each aligned offset of the window, and what a read
of it answers right after reset (for x[i] the spec gives no value, so none is stated). -/
def Obligations.AddressMap : Prop :=
  target 0x000 = .ctrl ∧ target 0x004 = .status ∧ target 0x008 = .cmd ∧ target 0x00C = .rand ∧
  (∀ off, 0x010 ≤ off → off ≤ 0x03C → off % 4 = 0 → target off = .reserved) ∧
  (∀ i : RegNum, target (0x040 + 4 * i.val) = .reg i) ∧
  (∀ off, 0x080 ≤ off → off ≤ 0x0FC → off % 4 = 0 → target off = .reserved) ∧
  (∀ off ts, off ≤ 0x0FC → off % 4 = 0 → (off < 0x040 ∨ 0x080 ≤ off) →
    ∃ t, step { State.reset with turns := .host (readAt off) :: ts } = .next t ∧ t.resp = .read 0)

/-- A write to x[i], a read of x[i], by the phase.  While a command is in execution the write is dropped
with COLL and the read answers an unspecified Word (10_state.md R40); that this Word is `Config.freeWord`
of a counter the read advances is the model's choice (log entry 4).  While IDLE the write is stored and
marks the register written (R20, R21), and the read answers the register's value (R40). -/
def Obligations.RegisterAccess : Prop :=
  ∀ (s : State) (ts : List Turn) (i : RegNum) (v : Word), s.rst = false →
    (s.turns = .host (writeAt (regOffset i) v) :: ts →
      (s.phase ≠ .idle → step s = .next { s with coll := true, resp := .written, turns := ts }) ∧
      (s.phase = .idle → ∃ t, step s = .next t ∧ t.reg i = v ∧ t.marked i = true ∧
        (∀ r, r ≠ i → t.reg r = s.reg r ∧ t.marked r = s.marked r) ∧
        t = { s with x := t.x, written := t.written, resp := .written, turns := ts })) ∧
    (s.turns = .host (readAt (regOffset i)) :: ts →
      (s.phase ≠ .idle → step s =
        .next { s with
          resp := .read (Config.freeWord s.freeCtr), freeCtr := s.freeCtr + 1, turns := ts }) ∧
      (s.phase = .idle → step s = .next { s with resp := .read (s.reg i), turns := ts }))

/-- A CMD write while IDLE is accepted (10_state.md R35): the word is latched, the report cleared, COLL
kept, BUSY reads 1, and each command's own source registers are latched as its operands; an illegal word
latches none.  Nothing else of the CORE changes. -/
def Obligations.CommandWriteIsAccepted : Prop :=
  ∀ (s : State) (ts : List Turn) (w : Word), s.rst = false → s.phase = .idle →
    s.turns = .host (writeAt 0x008 w) :: ts →
    ∃ t, step s = .next t ∧
      t.cmdLatch = w ∧ t.done = false ∧ t.err = false ∧ t.ecode = .none ∧ t.busy = true ∧ t.phase = .exec ∧
      t = { s with
        cmdLatch := w, done := false, err := false, ecode := .none, phase := .exec, work := t.work
        resp := .written, turns := ts } ∧
      (∀ rd a b m, decode w = .command (.madd rd a b m) ∨ decode w = .command (.msub rd a b m) ∨
          decode w = .command (.mmul rd a b m) ∨ decode w = .command (.mpow rd a b m) →
        t.work.opA = s.reg a ∧ t.work.opB = s.reg b ∧ t.work.opM = s.reg m) ∧
      (∀ rd a b, decode w = .command (.mrt rd a b) ∨ decode w = .command (.gcd rd a b) →
        t.work.opA = s.reg a ∧ t.work.opB = s.reg b ∧ t.work.opM = s.work.opM) ∧
      (∀ rd a m, decode w = .command (.minv rd a m) →
        t.work.opA = s.reg a ∧ t.work.opB = s.work.opB ∧ t.work.opM = s.reg m) ∧
      (∀ why, decode w = .illegal why →
        t.work.opA = s.work.opA ∧ t.work.opB = s.work.opB ∧ t.work.opM = s.work.opM) ∧
      t.work.mr.draw = none

/-- A CMD write while a command is in execution is dropped and sets COLL (10_state.md R39). -/
def Obligations.CommandWriteWhileBusyIsDropped : Prop :=
  ∀ (s : State) (ts : List Turn) (w : Word), s.rst = false → s.phase ≠ .idle →
    s.turns = .host (writeAt 0x008 w) :: ts →
    step s = .next { s with coll := true, resp := .written, turns := ts }

/-- CTRL (10_state.md R26): in every phase a write sets both enables, keeps everything else when bit 31
is 0, and a read shows the enables in bits 0 and 1 and 0 everywhere else. -/
def Obligations.ControlRegister : Prop :=
  ∀ (s : State) (ts : List Turn) (v : Word), s.rst = false →
    (s.turns = .host (writeAt 0x000 v) :: ts → v.getLsbD 31 = false →
      step s = .next { s with
        ieDone := v.getLsbD 0, ieRand := v.getLsbD 1, resp := .written, turns := ts }) ∧
    (s.turns = .host (writeAt 0x000 v) :: ts → v.getLsbD 31 = true →
      ∃ t, step s = .next t ∧ t.ieDone = v.getLsbD 0 ∧ t.ieRand = v.getLsbD 1 ∧ t.phase = .idle) ∧
    (s.turns = .host (readAt 0x000) :: ts →
      ∃ c : Word, step s = .next { s with resp := .read c, turns := ts } ∧
        c.getLsbD 0 = s.ieDone ∧ c.getLsbD 1 = s.ieRand ∧ ∀ n, 2 ≤ n → c.getLsbD n = false)

/-- Soft reset (70_reset_and_hazards.md R242): a CTRL write with bit 31 set is taken in every phase; it
aborts the command, clears STATUS and CMD, sets the enables from the same write, and keeps every register
and mark. -/
def Obligations.SoftReset : Prop :=
  ∀ (s : State) (ts : List Turn) (v : Word), s.rst = false →
    s.turns = .host (writeAt 0x000 v) :: ts → v.getLsbD 31 = true →
    ∃ t, step s = .next t ∧ t.phase = .idle ∧ t.cmdLatch = 0 ∧ t.statusWord = 0 ∧
      t.done = false ∧ t.err = false ∧ t.coll = false ∧ t.ecode = .none ∧
      t.ieDone = v.getLsbD 0 ∧ t.ieRand = v.getLsbD 1 ∧ t.ctrlWord.getLsbD 31 = false ∧
      (∀ r, t.reg r = s.reg r ∧ t.marked r = s.marked r) ∧ t.rst = false ∧ t.turns = ts

/-- STATUS as the host reads it (10_state.md R27): every bit of the answer, reserved ones 0. -/
def Obligations.StatusReadsItsFields : Prop :=
  ∀ (s : State) (ts : List Turn), s.rst = false → s.turns = .host (readAt 0x004) :: ts →
    ∃ v : Word, step s = .next { s with resp := .read v, turns := ts } ∧
      v.getLsbD 0 = (s.phase != .idle) ∧ v.getLsbD 1 = s.done ∧ v.getLsbD 2 = s.err ∧
      v.getLsbD 3 = (s.phase == .waitRand) ∧ v.getLsbD 4 = s.coll ∧
      (∀ n, 5 ≤ n → n ≤ 7 → v.getLsbD n = false) ∧
      (v.toNat / 2 ^ 8 % 2 ^ 4 = match s.ecode with | .none => 0 | .illegal => 1 | .range => 2) ∧
      (∀ n, 12 ≤ n → v.getLsbD n = false)

/-- A write to STATUS clears DONE where bit 1 is 1 and COLL where bit 4 is 1, ignores every other bit, and
leaves ERR and ECODE as they were (10_state.md R27, R28). -/
def Obligations.StatusWriteOneToClear : Prop :=
  ∀ (s : State) (ts : List Turn) (v : Word), s.rst = false → s.turns = .host (writeAt 0x004 v) :: ts →
    ∃ t, step s = .next t ∧
      t.done = (if v.getLsbD 1 then false else s.done) ∧ t.coll = (if v.getLsbD 4 then false else s.coll) ∧
      t.err = s.err ∧ t.ecode = s.ecode ∧
      t = { s with done := t.done, coll := t.coll, resp := .written, turns := ts }

/-- RAND (10_state.md R30, 43_miller_rabin.md R152): a read returns 0; a write while RNEED is 1 hands its
Word to the controller and ends the wait; any other write is dropped and sets COLL. -/
def Obligations.RandRegister : Prop :=
  ∀ (s : State) (ts : List Turn) (r : Word), s.rst = false →
    (s.turns = .host (readAt 0x00C) :: ts → step s = .next { s with resp := .read 0, turns := ts }) ∧
    (s.turns = .host (writeAt 0x00C r) :: ts → s.phase = .waitRand →
      step s = .next { s with
        phase := .exec, work := { s.work with mr := { s.work.mr with draw := some r } }
        resp := .written, turns := ts }) ∧
    (s.turns = .host (writeAt 0x00C r) :: ts → s.phase ≠ .waitRand →
      step s = .next { s with coll := true, resp := .written, turns := ts })

/-- Reserved fields and offsets (10_state.md R31).  A reserved offset reads 0 and ignores writes, with no
COLL.  The reserved fields of CTRL and STATUS read 0, and two values that agree outside them have the same
effect: what is written there changes nothing. -/
def Obligations.ReservedFieldsAndOffsets : Prop :=
  ∀ (s : State) (ts : List Turn), s.rst = false →
    (∀ (off : Nat) (v : Word), off % 4 = 0 → (0x010 ≤ off ∧ off ≤ 0x03C) ∨ (0x080 ≤ off ∧ off ≤ 0x0FC) →
      (s.turns = .host (readAt off) :: ts → step s = .next { s with resp := .read 0, turns := ts }) ∧
      (s.turns = .host (writeAt off v) :: ts → step s = .next { s with resp := .written, turns := ts })) ∧
    (s.turns = .host (readAt 0x000) :: ts → ∃ c : Word,
      step s = .next { s with resp := .read c, turns := ts } ∧ ∀ n, 2 ≤ n → n ≤ 30 → c.getLsbD n = false) ∧
    (s.turns = .host (readAt 0x004) :: ts → ∃ c : Word,
      step s = .next { s with resp := .read c, turns := ts } ∧
        (∀ n, 5 ≤ n → n ≤ 7 → c.getLsbD n = false) ∧ ∀ n, 12 ≤ n → n ≤ 31 → c.getLsbD n = false) ∧
    (∀ v w : Word, v.getLsbD 0 = w.getLsbD 0 → v.getLsbD 1 = w.getLsbD 1 → v.getLsbD 31 = w.getLsbD 31 →
      step { s with turns := .host (writeAt 0x000 v) :: ts } =
        step { s with turns := .host (writeAt 0x000 w) :: ts }) ∧
    (∀ v w : Word, (∀ n, ¬ (5 ≤ n ∧ n ≤ 7) → n < 12 → v.getLsbD n = w.getLsbD n) →
      step { s with turns := .host (writeAt 0x004 v) :: ts } =
        step { s with turns := .host (writeAt 0x004 w) :: ts }) ∧
    (∀ (t : State) (v : Word), step { s with turns := .host (writeAt 0x000 v) :: ts } = .next t ∨
        step { s with turns := .host (writeAt 0x004 v) :: ts } = .next t →
      t.coll = true → s.coll = true)

/-- Host reads have no side effects (10_state.md R41): a legal read of any offset changes nothing but the
answer on the bus (and the model's own count of free values). -/
def Obligations.ReadsHaveNoSideEffect : Prop :=
  ∀ (s : State) (ts : List Turn) (off : Nat), s.rst = false → off < 256 → off % 4 = 0 →
    s.turns = .host (readAt off) :: ts →
    ∃ v n, step s = .next { s with resp := .read v, turns := ts, freeCtr := n }

/-- Access size and alignment (20_memory.md R64): inside the window a 32-bit access at a multiple of 4 is
served, and every other access, read or write, is a bus error: a fault of the host step. -/
def Obligations.OnlyAlignedWordAccessesAreServed : Prop :=
  ∀ (s : State) (ts : List Turn) (a : Access), s.rst = false → s.turns = .host a :: ts →
    Config.coreBase ≤ a.addr → a.addr < Config.coreBase + 256 →
    (a.size = 4 → a.addr % 4 = 0 → ∃ t, step s = .next t) ∧
    (a.size ≠ 4 ∨ a.addr % 4 ≠ 0 → step s = .fault .busError)

/-- An access outside the 256-byte window is no access to the CORE (20_memory.md R65), and while rst is
asserted no access is served (70_reset_and_hazards.md R241): both are refused.  The window is 256-byte
aligned. -/
def Obligations.AccessesThatAreNotServed : Prop :=
  Config.coreBase % 256 = 0 ∧
  ∀ (s : State) (ts : List Turn) (a : Access), s.turns = .host a :: ts →
    (a.addr < Config.coreBase ∨ Config.coreBase + 256 ≤ a.addr → step s = .refused .outsideWindow) ∧
    (Config.coreBase ≤ a.addr → a.addr < Config.coreBase + 256 → s.rst = true →
      step s = .refused .inReset)

/-- A dropped host write is not a command error (60_exceptions.md R215): it sets COLL and nothing else of
the CORE, in particular not DONE, ERR, ECODE or the running command.  And COLL is set by nothing else: a
step that sets it is a dropped write of CMD, RAND or x[i]. -/
def Obligations.CollisionIsNotAnError : Prop :=
  (∀ (s : State) (ts : List Turn) (off : Nat) (v : Word), s.rst = false →
    s.turns = .host (writeAt off v) :: ts →
    (off = 0x008 ∧ s.phase ≠ .idle) ∨ (off = 0x00C ∧ s.phase ≠ .waitRand) ∨
      (s.phase ≠ .idle ∧ ∃ i, off = regOffset i) →
    step s = .next { s with coll := true, resp := .written, turns := ts }) ∧
  (∀ s t : State, step s = .next t → s.coll = false → t.coll = true →
    ∃ off v, s.turns.head? = some (.host (writeAt off v)) ∧
      ((off = 0x008 ∧ s.phase ≠ .idle) ∨ (off = 0x00C ∧ s.phase ≠ .waitRand) ∨
        (s.phase ≠ .idle ∧ ∃ i, off = regOffset i)))

/-- The error report stays (10_state.md R28): in every state that meets the invariant, ERR clears only on
acceptance of a new command or by reset, with the report's ECODE unchanged until then; a host write of 1
to DONE leaves ERR and ECODE as they were. -/
def Obligations.ErrorReportStays : Prop :=
  (∀ s t : State, s.Inv → step s = .next t → s.err = true →
    (t.err = true ∧ t.ecode = s.ecode) ∨
    (s.phase = .idle ∧ ∃ w, s.turns.head? = some (.host (writeAt 0x008 w)) ∧ t.cmdLatch = w) ∨
    (∃ v : Word, v.getLsbD 31 = true ∧ s.turns.head? = some (.host (writeAt 0x000 v))) ∨
    s.turns.head? = some (.rst true)) ∧
  (∀ (s : State) (ts : List Turn) (v : Word), s.rst = false → s.turns = .host (writeAt 0x004 v) :: ts →
    v.getLsbD 1 = true → ∃ t, step s = .next t ∧ t.done = false ∧ t.err = s.err ∧ t.ecode = s.ecode)

/-! ## Reset (70_reset_and_hazards.md) -/

/-- What reset leaves (70_reset_and_hazards.md R240), the values the spec gives: CTRL, STATUS and CMD read
0, IDLE, irq 0, every register marked unwritten.  (What the registers hold is the model's choice, log
entry 1, and is not stated.) -/
def Obligations.StateAfterReset : Prop :=
  State.reset.ctrlWord = 0 ∧ State.reset.statusWord = 0 ∧ State.reset.cmdLatch = 0 ∧
  State.reset.phase = .idle ∧ State.reset.irq = false ∧ ∀ r, State.reset.marked r = false

/-- Hardware reset in any state (70_reset_and_hazards.md R240): the same, whatever was running; no draw
is consumed and no host turn is lost.  x[0] to x[15] are unspecified Words (free values) and unwritten. -/
def Obligations.HardwareReset : Prop :=
  ∀ (s : State) (ts : List Turn), s.turns = .rst true :: ts →
    ∃ t, step s = .next t ∧ t.rst = true ∧ t.ctrlWord = 0 ∧ t.statusWord = 0 ∧ t.cmdLatch = 0 ∧
      t.phase = .idle ∧ t.irq = false ∧ t.turns = ts ∧
      ∀ r : RegNum, t.marked r = false ∧ t.reg r = Config.freeWord (s.freeCtr + r.val)

/-! ## The step (10_state.md section 7) -/

/-- A step runs the decoded command: in EXEC, out of reset, when the CORE's turn is due (or none is
listed), the step is the meaning of the command that cmd_latch decodes to, on the state with that turn
taken. -/
def Obligations.StepRunsDecodedCommand : Prop :=
  ∀ (s : State) (i : Instr), s.rst = false → s.phase = .exec → decode s.cmdLatch = .command i →
    (s.turns = [] ∨ s.turns.head? = some .core) → step s = exec i { s with turns := s.turns.tail }

/-- An illegal command completes with ILLEGAL (30_encoding.md R96, 60_exceptions.md R214): no register,
mark or hidden register changes, and CMD keeps the word.  What a read of CMD answers, in every phase, is
cmd_latch: the last accepted word, illegal or not (10_state.md R29, 60_exceptions.md R211). -/
def Obligations.IllegalCommandEndsInError : Prop :=
  (∀ (s : State) (why : IllegalReason), s.rst = false → s.phase = .exec →
    decode s.cmdLatch = .illegal why → (s.turns = [] ∨ s.turns.head? = some .core) →
    ∃ t, step s = .next t ∧ EndsInError { s with turns := s.turns.tail } .illegal t) ∧
  (∀ (s : State) (ts : List Turn), s.rst = false → s.turns = .host (readAt 0x008) :: ts →
    step s = .next { s with resp := .read s.cmdLatch, turns := ts }) ∧
  (∀ (s : State) (ts : List Turn) (w : Word) (why : IllegalReason), s.rst = false → s.phase = .idle →
    decode w = .illegal why →
    s.turns = .host (writeAt 0x008 w) :: .core :: .host (readAt 0x008) :: ts →
    ∃ u, Host.Core.run Sys2Proof.core 3 s = .next u ∧ u.turns = ts ∧ u.resp = .read w ∧ u.done = true ∧
      u.err = true ∧ u.ecode = .illegal ∧ u.phase = .idle ∧
      ∀ r, u.reg r = s.reg r ∧ u.marked r = s.marked r)

/-- Every command but MRT completes in one CORE step (10_state.md R38, R42): DONE is set and the CORE is
IDLE, whatever the operands. -/
def Obligations.CommandsCompleteInOneStep : Prop :=
  ∀ (s : State) (i : Instr), s.rst = false → s.phase = .exec → decode s.cmdLatch = .command i →
    (∀ rd rs1 rs2, i ≠ .mrt rd rs1 rs2) → (s.turns = [] ∨ s.turns.head? = some .core) →
    ∃ t, step s = .next t ∧ t.phase = .idle ∧ t.done = true ∧
      ((t.err = false ∧ t.ecode = .none) ∨ (t.err = true ∧ t.ecode = .range))

/-- Without a RAND write MRT waits for ever (43_miller_rabin.md R153): however many CORE steps are taken
in WAIT_RAND, nothing changes. -/
def Obligations.WaitRandHangsWithoutDraw : Prop :=
  ∀ (n : Nat) (s : State), s.phase = .waitRand → (∀ u ∈ s.turns, u = .core) →
    Host.Core.run Sys2Proof.core n s = .next { s with turns := s.turns.drop n }

/-- Only a draw or a reset ends a wait (43_miller_rabin.md R151, R153). -/
def Obligations.OnlyDrawOrResetEndsTheWait : Prop :=
  ∀ s t : State, s.phase = .waitRand → step s = .next t → t.phase ≠ .waitRand →
    (∃ r, s.turns.head? = some (.host (writeAt 0x00C r))) ∨
    (∃ v : Word, v.getLsbD 31 = true ∧ s.turns.head? = some (.host (writeAt 0x000 v))) ∨
    s.turns.head? = some (.rst true)

/-- A command starts only by a CMD write while IDLE (20_memory.md R74), and CMD's word changes only by
that write or by a reset (10_state.md R29): it is the last accepted word. -/
def Obligations.OnlyCommandWriteStartsCommand : Prop :=
  (∀ s t : State, s.phase = .idle → step s = .next t → t.phase ≠ .idle →
    ∃ w, s.turns.head? = some (.host (writeAt 0x008 w)) ∧ t.cmdLatch = w ∧ t.phase = .exec) ∧
  (∀ s t : State, step s = .next t → t.cmdLatch ≠ s.cmdLatch →
    (s.phase = .idle ∧ s.turns.head? = some (.host (writeAt 0x008 t.cmdLatch))) ∨
    (t.cmdLatch = 0 ∧ ((∃ v : Word, v.getLsbD 31 = true ∧ s.turns.head? = some (.host (writeAt 0x000 v))) ∨
      s.turns.head? = some (.rst true))))

/-- Nothing alters an accepted command (20_memory.md R71 (c), R74): while it stays in execution, its word,
its latched operands and every register and mark stay as they are. -/
def Obligations.AcceptedCommandIsFixed : Prop :=
  ∀ s t : State, s.phase ≠ .idle → step s = .next t → t.phase ≠ .idle →
    t.cmdLatch = s.cmdLatch ∧ t.work.opA = s.work.opA ∧ t.work.opB = s.work.opB ∧
    t.work.opM = s.work.opM ∧ ∀ r, t.reg r = s.reg r ∧ t.marked r = s.marked r

/-- A register changes only by a host write to it while IDLE, by a command of which it is the destination
and which completes without error, or by hardware reset (10_state.md R20, R37, R40). -/
def Obligations.RegistersChangeOnlyByWriteCompletionOrReset : Prop :=
  ∀ (s t : State) (r : RegNum), step s = .next t → t.reg r ≠ s.reg r →
    (s.phase = .idle ∧ ∃ v, s.turns.head? = some (.host (writeAt (regOffset r) v)) ∧ t.reg r = v) ∨
    (s.phase = .exec ∧ (∃ i, decode s.cmdLatch = .command i ∧ rdOf i = r) ∧
      t.phase = .idle ∧ t.done = true ∧ t.err = false) ∨
    s.turns.head? = some (.rst true)

/-- The frame of every command: when `exec` answers a next state, every register and mark but the
destination's, CTRL, COLL, cmd_latch, the latched operands and everything outside the CORE are unchanged;
the destination too, unless the command completes without error (10_state.md R37, 60_exceptions.md R214,
43_miller_rabin.md R151).  A command stores to no memory: the CORE has none. -/
def Obligations.CommandFrame : Prop :=
  ∀ (i : Instr) (s t : State), exec i s = .next t →
    SameSurroundings s t ∧
    (∀ r, r ≠ rdOf i → t.reg r = s.reg r ∧ t.marked r = s.marked r) ∧
    (t.phase ≠ .idle ∨ t.err = true → ∀ r, t.reg r = s.reg r ∧ t.marked r = s.marked r)

/-! ## The commands -/

/-- MADD (40_modular_adder.md R111): for a, b < m it completes with (a + b) mod m in x[rd]. -/
def Obligations.MaddResult : Prop :=
  ∀ (s : State) (rd rs1 rs2 rm : RegNum),
    s.work.opA.toNat < s.work.opM.toNat → s.work.opB.toNat < s.work.opM.toNat →
    ∃ t, exec (.madd rd rs1 rs2 rm) s = .next t ∧
      Completes s rd (BitVec.ofNat 32 ((s.work.opA.toNat + s.work.opB.toNat) % s.work.opM.toNat)) t

/-- MSUB (40_modular_adder.md R113): for a, b < m it completes with the non-negative (a - b) mod m in
x[rd]. -/
def Obligations.MsubResult : Prop :=
  ∀ (s : State) (rd rs1 rs2 rm : RegNum),
    s.work.opA.toNat < s.work.opM.toNat → s.work.opB.toNat < s.work.opM.toNat →
    ∃ t, exec (.msub rd rs1 rs2 rm) s = .next t ∧
      Completes s rd
        (BitVec.ofInt 32 (((s.work.opA.toNat : Int) - s.work.opB.toNat) % s.work.opM.toNat)) t

/-- MMUL (41_modular_multiplier.md R131): for m >= 2 and x < m, whatever y, it completes with
(x * y) mod m in x[rd]. -/
def Obligations.MmulResult : Prop :=
  ∀ (s : State) (rd rs1 rs2 rm : RegNum), 2 ≤ s.work.opM.toNat → s.work.opA.toNat < s.work.opM.toNat →
    ∃ t, exec (.mmul rd rs1 rs2 rm) s = .next t ∧
      Completes s rd (BitVec.ofNat 32 (s.work.opA.toNat * s.work.opB.toNat % s.work.opM.toNat)) t

/-- MPOW (42_modular_exponentiation.md R141): for m >= 2, and base < m unless exp is 0, it completes with
base^exp mod m in x[rd]; exp = 0 gives 1 for every base. -/
def Obligations.MpowResult : Prop :=
  ∀ (s : State) (rd rs1 rs2 rm : RegNum), 2 ≤ s.work.opM.toNat →
    s.work.opB.toNat = 0 ∨ s.work.opA.toNat < s.work.opM.toNat →
    ∃ t, exec (.mpow rd rs1 rs2 rm) s = .next t ∧
      Completes s rd (BitVec.ofNat 32 (s.work.opA.toNat ^ s.work.opB.toNat % s.work.opM.toNat)) t

/-- MINV (44_extended_gcd.md R171): for m >= 2 and any a it completes without error; x[rd] is the inverse
of a modulo m in [1, m - 1], or the sentinel 0 where there is none. -/
def Obligations.MinvResult : Prop :=
  ∀ (s : State) (rd rs1 rm : RegNum), 2 ≤ s.work.opM.toNat →
    ∃ v t, exec (.minv rd rs1 rm) s = .next t ∧ Completes s rd v t ∧
      (Nat.gcd s.work.opA.toNat s.work.opM.toNat = 1 →
        1 ≤ v.toNat ∧ v.toNat < s.work.opM.toNat ∧
          s.work.opA.toNat * v.toNat % s.work.opM.toNat = 1) ∧
      (Nat.gcd s.work.opA.toNat s.work.opM.toNat ≠ 1 → v = 0)

/-- GCD (44_extended_gcd.md R181): for any operands it completes with their greatest common divisor in
x[rd]. -/
def Obligations.GcdResult : Prop :=
  ∀ (s : State) (rd rs1 rs2 : RegNum),
    ∃ t, exec (.gcd rd rs1 rs2) s = .next t ∧
      Completes s rd (BitVec.ofNat 32 (Nat.gcd s.work.opA.toNat s.work.opB.toNat)) t

/-- RANGE (60_exceptions.md R212): each command ends in RANGE exactly under its row's condition, with
nothing changed but the report (CMD keeps the word, no register is written); MRT and GCD never do. -/
def Obligations.RangeErrorsExactly : Prop :=
  ∀ (s : State) (rd a b m : RegNum),
    ((s.work.opM.toNat ≤ s.work.opA.toNat ∨ s.work.opM.toNat ≤ s.work.opB.toNat) ↔
      ∃ t, exec (.madd rd a b m) s = .next t ∧ EndsInError s .range t) ∧
    ((s.work.opM.toNat ≤ s.work.opA.toNat ∨ s.work.opM.toNat ≤ s.work.opB.toNat) ↔
      ∃ t, exec (.msub rd a b m) s = .next t ∧ EndsInError s .range t) ∧
    ((s.work.opM.toNat < 2 ∨ s.work.opM.toNat ≤ s.work.opA.toNat) ↔
      ∃ t, exec (.mmul rd a b m) s = .next t ∧ EndsInError s .range t) ∧
    ((s.work.opM.toNat < 2 ∨ (s.work.opB.toNat ≠ 0 ∧ s.work.opM.toNat ≤ s.work.opA.toNat)) ↔
      ∃ t, exec (.mpow rd a b m) s = .next t ∧ EndsInError s .range t) ∧
    (s.work.opM.toNat < 2 ↔ ∃ t, exec (.minv rd a m) s = .next t ∧ EndsInError s .range t) ∧
    (¬ ∃ t, exec (.mrt rd a b) s = .next t ∧ EndsInError s .range t) ∧
    (¬ ∃ t, exec (.gcd rd a b) s = .next t ∧ EndsInError s .range t)

/-- MRT without draw (43_miller_rabin.md R156, R157): 2 is prime; 0, 1 and every other even number is not;
zero rounds of an odd candidate give 1.  Each completes in its first CORE step. -/
def Obligations.MrtSpecialCases : Prop :=
  ∀ (s : State) (rd rs1 rs2 : RegNum), s.work.mr.draw = none →
    (s.work.opA.toNat = 2 → ∃ t, exec (.mrt rd rs1 rs2) s = .next t ∧ Completes s rd 1 t) ∧
    ((s.work.opA.toNat < 2 ∨ (s.work.opA.toNat % 2 = 0 ∧ s.work.opA.toNat ≠ 2)) →
      ∃ t, exec (.mrt rd rs1 rs2) s = .next t ∧ Completes s rd 0 t) ∧
    (s.work.opA.toNat % 2 = 1 → 3 ≤ s.work.opA.toNat → s.work.opB.toNat = 0 →
      ∃ t, exec (.mrt rd rs1 rs2) s = .next t ∧ Completes s rd 1 t)

/-- MRT's first draw request (43_miller_rabin.md R151, R156): for an odd candidate c >= 3 and k >= 1 rounds
the first CORE step waits for a draw, with c - 1 = d * 2^s, d odd, s >= 1, and k rounds to go. -/
def Obligations.MrtFirstRequest : Prop :=
  ∀ (s : State) (rd rs1 rs2 : RegNum), s.work.mr.draw = none → s.work.opA.toNat % 2 = 1 →
    3 ≤ s.work.opA.toNat → s.work.opB.toNat ≠ 0 →
    ∃ t, exec (.mrt rd rs1 rs2) s = .next t ∧ AwaitsDraw s t ∧
      t.work.mr.d.toNat * 2 ^ t.work.mr.twos = s.work.opA.toNat - 1 ∧ t.work.mr.d.toNat % 2 = 1 ∧
      1 ≤ t.work.mr.twos ∧ t.work.mr.left = s.work.opB

/-- One round of MRT (43_miller_rabin.md R154, R156), from the draw r that has come in: base
a = 1 + floor(r * (c - 2) / 2^32).  A base that is no strong liar ends the command with 0; the last round
that passes ends it with 1; else the next draw is asked for, with one round less to go. -/
def Obligations.MrtRound : Prop :=
  ∀ (s : State) (rd rs1 rs2 : RegNum) (r : Word), s.work.mr.draw = some r → 3 ≤ s.work.opA.toNat →
    1 ≤ s.work.mr.twos → 1 ≤ s.work.mr.left.toNat →
    (¬ StrongLiar s.work.opA.toNat s.work.mr.d.toNat s.work.mr.twos (baseNat s.work.opA.toNat r.toNat) →
      ∃ t, exec (.mrt rd rs1 rs2) s = .next t ∧ Completes s rd 0 t) ∧
    (StrongLiar s.work.opA.toNat s.work.mr.d.toNat s.work.mr.twos (baseNat s.work.opA.toNat r.toNat) →
      s.work.mr.left.toNat = 1 → ∃ t, exec (.mrt rd rs1 rs2) s = .next t ∧ Completes s rd 1 t) ∧
    (StrongLiar s.work.opA.toNat s.work.mr.d.toNat s.work.mr.twos (baseNat s.work.opA.toNat r.toNat) →
      2 ≤ s.work.mr.left.toNat →
      ∃ t, exec (.mrt rd rs1 rs2) s = .next t ∧ AwaitsDraw s t ∧ t.work.mr.d = s.work.mr.d ∧
        t.work.mr.twos = s.work.mr.twos ∧ t.work.mr.left.toNat = s.work.mr.left.toNat - 1)

/-- The base mapping (43_miller_rabin.md R154): the formula, its range, monotone in r, 1 for c = 3, the
smallest draw of each base, and the worked example. -/
def Obligations.BaseMapping : Prop :=
  (∀ c r : Word, c.toNat % 2 = 1 → 3 ≤ c.toNat →
    (baseOf c r).toNat = 1 + r.toNat * (c.toNat - 2) / 2 ^ 32 ∧
    1 ≤ (baseOf c r).toNat ∧ (baseOf c r).toNat ≤ c.toNat - 2) ∧
  (∀ c r r' : Word, 3 ≤ c.toNat → r.toNat ≤ r'.toNat → (baseOf c r).toNat ≤ (baseOf c r').toNat) ∧
  (∀ r : Word, baseOf 3 r = 1) ∧
  (∀ c a : Word, 3 ≤ c.toNat → 1 ≤ a.toNat → a.toNat ≤ c.toNat - 2 →
    ∃ q : Word, q.toNat = ((a.toNat - 1) * 2 ^ 32 + (c.toNat - 2 - 1)) / (c.toNat - 2) ∧
      baseOf c q = a ∧ ∀ r : Word, baseOf c r = a → q.toNat ≤ r.toNat) ∧
  baseOf 97 0x02B1DA47 = 2 ∧ baseOf 97 0x02B1DA46 = 1

/-- A prime candidate passes every round (43_miller_rabin.md R159 (a)): whatever the draw, an MRT of an odd
prime with a draw in hand goes on to the next request, or completes with 1. -/
def Obligations.PrimePassesEveryRound : Prop :=
  ∀ (s : State) (rd rs1 rs2 : RegNum) (r : Word), s.work.mr.draw = some r → s.MrOk →
    Nat.Prime s.work.opA.toNat →
    (s.work.mr.left.toNat = 1 → ∃ t, exec (.mrt rd rs1 rs2) s = .next t ∧ Completes s rd 1 t) ∧
    (2 ≤ s.work.mr.left.toNat → ∃ t, exec (.mrt rd rs1 rs2) s = .next t ∧ AwaitsDraw s t)

/-- Base 1 is a strong liar for every odd candidate (43_miller_rabin.md R159 (c)): with every draw below
2^32 / (c - 2) no round rejects, also for a composite. -/
def Obligations.SmallDrawsNeverReject : Prop :=
  ∀ (s t : State) (rd rs1 rs2 : RegNum) (r : Word), s.work.mr.draw = some r → s.MrOk →
    r.toNat * (s.work.opA.toNat - 2) < 2 ^ 32 → exec (.mrt rd rs1 rs2) s = .next t →
    Completes s rd 1 t ∨ AwaitsDraw s t

/-- A whole MRT of k >= 1 rounds on an odd candidate c >= 3, run with k draws of which each passes
(43_miller_rabin.md R156, R157): it takes exactly those draws and completes with 1. -/
def Obligations.MrtRunPasses : Prop :=
  ∀ (s : State) (rd rs1 rs2 : RegNum) (draws : List Word) (d e : Nat),
    s.rst = false → s.phase = .exec → s.work.mr.draw = none →
    decode s.cmdLatch = .command (.mrt rd rs1 rs2) →
    s.work.opA.toNat % 2 = 1 → 3 ≤ s.work.opA.toNat → draws ≠ [] → draws.length = s.work.opB.toNat →
    d % 2 = 1 → d * 2 ^ e = s.work.opA.toNat - 1 →
    (∀ r ∈ draws, StrongLiar s.work.opA.toNat d e (baseNat s.work.opA.toNat r.toNat)) →
    s.turns = mrtTurns draws →
    ∃ t, Host.Core.run Sys2Proof.core (1 + 2 * draws.length) s = .next t ∧
      t.phase = .idle ∧ t.done = true ∧ t.err = false ∧ t.ecode = .none ∧ t.turns = [] ∧
      t.coll = s.coll ∧ t.reg rd = 1 ∧ ∀ q, q ≠ rd → t.reg q = s.reg q

/-- A whole MRT in which round j is the first to reject (43_miller_rabin.md R156, R157): it takes exactly j
draws, though more rounds were asked for, and completes with 0. -/
def Obligations.MrtRunRejects : Prop :=
  ∀ (s : State) (rd rs1 rs2 : RegNum) (passing : List Word) (last : Word) (d e : Nat),
    s.rst = false → s.phase = .exec → s.work.mr.draw = none →
    decode s.cmdLatch = .command (.mrt rd rs1 rs2) →
    s.work.opA.toNat % 2 = 1 → 3 ≤ s.work.opA.toNat → passing.length < s.work.opB.toNat →
    d % 2 = 1 → d * 2 ^ e = s.work.opA.toNat - 1 →
    (∀ r ∈ passing, StrongLiar s.work.opA.toNat d e (baseNat s.work.opA.toNat r.toNat)) →
    ¬ StrongLiar s.work.opA.toNat d e (baseNat s.work.opA.toNat last.toNat) →
    s.turns = mrtTurns (passing ++ [last]) →
    ∃ t, Host.Core.run Sys2Proof.core (1 + 2 * (passing.length + 1)) s = .next t ∧
      t.phase = .idle ∧ t.done = true ∧ t.err = false ∧ t.ecode = .none ∧ t.turns = [] ∧
      t.coll = s.coll ∧ t.reg rd = 0 ∧ ∀ q, q ≠ rd → t.reg q = s.reg q

/-- From the registers to the register (10_state.md R35, R37, 20_memory.md R71): a CMD write while IDLE
and the CORE step after it complete without error under the command's own precondition on the registers'
values at acceptance, and leave in x[rd] exactly the command's result of those values, also where rd is
one of the sources. -/
def Obligations.CommandComputesFromItsRegisters : Prop :=
  ∀ (s : State) (ts : List Turn) (i : Instr), s.rst = false → s.phase = .idle →
    s.turns = .host (writeAt 0x008 (encode i)) :: .core :: ts →
    ∃ u, Host.Core.run Sys2Proof.core 2 s = .next u ∧ u.turns = ts ∧
      (∀ rd a b m, i = .madd rd a b m → (s.reg a).toNat < (s.reg m).toNat →
        (s.reg b).toNat < (s.reg m).toNat →
        u.done = true ∧ u.err = false ∧
          u.reg rd = BitVec.ofNat 32 (((s.reg a).toNat + (s.reg b).toNat) % (s.reg m).toNat)) ∧
      (∀ rd a b m, i = .msub rd a b m → (s.reg a).toNat < (s.reg m).toNat →
        (s.reg b).toNat < (s.reg m).toNat →
        u.done = true ∧ u.err = false ∧
          u.reg rd = BitVec.ofInt 32 (((s.reg a).toNat - (s.reg b).toNat : Int) % (s.reg m).toNat)) ∧
      (∀ rd a b m, i = .mmul rd a b m → 2 ≤ (s.reg m).toNat → (s.reg a).toNat < (s.reg m).toNat →
        u.done = true ∧ u.err = false ∧
          u.reg rd = BitVec.ofNat 32 ((s.reg a).toNat * (s.reg b).toNat % (s.reg m).toNat)) ∧
      (∀ rd a b m, i = .mpow rd a b m → 2 ≤ (s.reg m).toNat →
        (s.reg b).toNat = 0 ∨ (s.reg a).toNat < (s.reg m).toNat →
        u.done = true ∧ u.err = false ∧
          u.reg rd = BitVec.ofNat 32 ((s.reg a).toNat ^ (s.reg b).toNat % (s.reg m).toNat)) ∧
      (∀ rd a m, i = .minv rd a m → 2 ≤ (s.reg m).toNat →
        u.done = true ∧ u.err = false ∧
          (Nat.gcd (s.reg a).toNat (s.reg m).toNat = 1 →
            1 ≤ (u.reg rd).toNat ∧ (u.reg rd).toNat < (s.reg m).toNat ∧
              (s.reg a).toNat * (u.reg rd).toNat % (s.reg m).toNat = 1) ∧
          (Nat.gcd (s.reg a).toNat (s.reg m).toNat ≠ 1 → u.reg rd = 0)) ∧
      (∀ rd a b, i = .gcd rd a b →
        u.done = true ∧ u.err = false ∧
          u.reg rd = BitVec.ofNat 32 (Nat.gcd (s.reg a).toNat (s.reg b).toNat))

/-! ## Laws of the units' functions -/

/-- The laws of the modular_adder (40_modular_adder.md R114), and in command terms: MADD of rs1 and rs2
into rt, then MSUB of rt and rs2 into ru, gives x[rs1] back, where rt is none of rs2 and rm. -/
def Obligations.ModularAdderLaws : Prop :=
  (∀ a b m : Word, a.toNat < m.toNat → b.toNat < m.toNat →
    (modAdd a b m).toNat = (a.toNat + b.toNat) % m.toNat ∧
    ((modSub a b m).toNat : Int) = ((a.toNat : Int) - b.toNat) % m.toNat ∧
    (modAdd a b m).toNat < m.toNat ∧ (modSub a b m).toNat < m.toNat ∧
    modAdd a b m = modAdd b a m ∧ modSub (modAdd a b m) b m = a) ∧
  (∀ (s : State) (ts : List Turn) (rs1 rs2 rm rt ru : RegNum), s.rst = false → s.phase = .idle →
    (s.reg rs1).toNat < (s.reg rm).toNat → (s.reg rs2).toNat < (s.reg rm).toNat → rt ≠ rs2 → rt ≠ rm →
    s.turns = .host (writeAt 0x008 (encode (.madd rt rs1 rs2 rm))) :: .core ::
      .host (writeAt 0x008 (encode (.msub ru rt rs2 rm))) :: .core :: ts →
    ∃ u, Host.Core.run Sys2Proof.core 4 s = .next u ∧ u.turns = ts ∧ u.done = true ∧ u.err = false ∧
      u.reg ru = s.reg rs1)

/-- The laws of the modular_multiplier (41_modular_multiplier.md R132). -/
def Obligations.ModularMultiplierLaws : Prop :=
  ∀ x y m : Word, 2 ≤ m.toNat →
    (x.toNat < m.toNat → (modMul x y m).toNat < m.toNat ∧
      (modMul x y m).toNat = x.toNat * y.toNat % m.toNat) ∧
    (x.toNat < m.toNat → y.toNat < m.toNat → modMul x y m = modMul y x m) ∧
    (modMul 1 y m).toNat = y.toNat % m.toNat

/-- The laws of the modular_exponentiation_engine, and the source's end-to-end scenario
(42_modular_exponentiation.md R142). -/
def Obligations.ModularExponentiationLaws : Prop :=
  (∀ b e m : Word, 2 ≤ m.toNat →
    (b.toNat < m.toNat → (modPow b e m).toNat < m.toNat ∧
      (modPow b e m).toNat = b.toNat ^ e.toNat % m.toNat) ∧
    modPow b 0 m = 1) ∧
  modPow 65 17 3233 = 2790 ∧ modPow 2790 2753 3233 = 65

/-- The laws of the modular inverse (44_extended_gcd.md R172): the one inverse in [1, m - 1], or 0. -/
def Obligations.ModularInverseLaws : Prop :=
  ∀ a m : Word, 2 ≤ m.toNat →
    (Nat.gcd a.toNat m.toNat = 1 →
      (1 ≤ (modInv a m).toNat ∧ (modInv a m).toNat ≤ m.toNat - 1 ∧
        a.toNat * (modInv a m).toNat % m.toNat = 1) ∧
      ∀ v : Nat, 1 ≤ v → v ≤ m.toNat - 1 → a.toNat * v % m.toNat = 1 → v = (modInv a m).toNat) ∧
    (Nat.gcd a.toNat m.toNat ≠ 1 → modInv a m = 0) ∧
    (Nat.gcd a.toNat m.toNat = 1 → 1 < a.toNat → a.toNat < m.toNat → modMul a (modInv a m) m = 1)

/-- The law of GCD, and how MINV and GCD agree (44_extended_gcd.md R182). -/
def Obligations.GcdAndInverseAgree : Prop :=
  ∀ a b : Word,
    (gcdWord a b).toNat = Nat.gcd a.toNat b.toNat ∧ gcdWord a b = gcdWord b a ∧
    (2 ≤ b.toNat → (modInv a b ≠ 0 ↔ gcdWord a b = 1))

/-! ## Interrupt, protocol, invariants -/

/-- irq (60_exceptions.md R220): its level, what clears each source, and that nothing else does. -/
def Obligations.InterruptLevelAndClearing : Prop :=
  (∀ s : State, s.irq = true ↔
    (s.done = true ∧ s.ieDone = true) ∨ (s.phase = .waitRand ∧ s.ieRand = true)) ∧
  (∀ (s t : State) (v : Word), step s = .next t → s.turns.head? = some (.host (writeAt 0x004 v)) →
    v.getLsbD 1 = true → t.done = false) ∧
  (∀ (s t : State) (w : Word), step s = .next t → s.turns.head? = some (.host (writeAt 0x008 w)) →
    s.phase = .idle → t.done = false) ∧
  (∀ (s t : State) (r : Word), step s = .next t → s.turns.head? = some (.host (writeAt 0x00C r)) →
    t.rneed = false) ∧
  (∀ (s t : State) (v : Word), step s = .next t → s.turns.head? = some (.host (writeAt 0x000 v)) →
    t.ieDone = v.getLsbD 0 ∧ t.ieRand = v.getLsbD 1 ∧ (v.getLsbD 31 = true → t.irq = false)) ∧
  (∀ s t : State, step s = .next t → s.turns.head? = some (.rst true) → t.irq = false) ∧
  (∀ s t : State, step s = .next t → s.irq = true → t.irq = false →
    (∃ v : Word, s.turns.head? = some (.host (writeAt 0x004 v)) ∧ v.getLsbD 1 = true) ∨
    (∃ w, s.turns.head? = some (.host (writeAt 0x008 w)) ∧ s.phase = .idle) ∨
    (∃ r, s.turns.head? = some (.host (writeAt 0x00C r)) ∧ s.phase = .waitRand) ∨
    (∃ v : Word, s.turns.head? = some (.host (writeAt 0x000 v)) ∧
      (v.getLsbD 31 = true ∨ (s.ieDone = true ∧ v.getLsbD 0 = false) ∨
        (s.ieRand = true ∧ v.getLsbD 1 = false))) ∨
    s.turns.head? = some (.rst true))

/-- At most one interrupt source is active (60_exceptions.md R221), in every state that meets the
invariant. -/
def Obligations.AtMostOneInterruptSource : Prop :=
  ∀ s : State, s.Inv → ¬ (s.done = true ∧ s.rneed = true)

/-- A host that keeps the protocol (45_host_procedures.md R190) and first writes what it reads never sets
COLL and never reads an unspecified value: its access is served; a read of x[i] answers the value of a
register that is written; a command it issues has written operands only; and no free value is taken
(log entry 4), but by a soft reset, for hidden state (log entry 3). -/
def Obligations.ProtocolHostNeverCollides : Prop :=
  ∀ (s : State) (a : Access) (ts : List Turn), s.rst = false → s.turns = .host a :: ts →
    keepsProtocol s a → ¬ readsUnwritten s a →
    ∃ t, step s = .next t ∧ (t.coll = true → s.coll = true) ∧
      (t.freeCtr = s.freeCtr ∨ ∃ v : Word, v.getLsbD 31 = true ∧ a = writeAt 0x000 v) ∧
      (∀ i, a = readAt (regOffset i) → s.marked i = true ∧ t.resp = .read (s.reg i)) ∧
      (∀ w, a = writeAt 0x008 w → t.cmdLatch = w ∧ ∀ r ∈ operandRegs w, s.marked r = true)

/-- The invariant holds right after reset. -/
def Obligations.ResetMeetsInvariant : Prop := State.reset.Inv

/-- Every step keeps the invariant (10_state.md R27: "The invariants hold in every reachable state"):
BUSY implies not DONE and not ERR, RNEED implies BUSY, ERR exactly when ECODE is not 0, under reset no
command runs, and what a running Miller-Rabin test holds. -/
def Obligations.StepKeepsInvariant : Prop := ∀ s t : State, s.Inv → step s = .next t → t.Inv

/-- Hidden state never shows (10_state.md R33): from two states that differ only in hidden registers that
no rule reads before writing them, every step has the same outcome, and next states are again such a
pair.  So the host sees the same registers, STATUS, CMD, answers and irq for ever. -/
def Obligations.HiddenStateNeverShows : Prop :=
  ∀ s t : State, Indistinguishable s t →
    (∀ s', step s = .next s' → ∃ t', step t = .next t' ∧ Indistinguishable s' t') ∧
    (∀ f, step s = .fault f → step t = .fault f) ∧
    (∀ r, step s = .refused r → step t = .refused r)
end

