-- ==== Sys2Proof/Laws/Arithmetic.lean ====
section
/-! SUPPORT. What the modular_adder, the modular_multiplier and the modular_exponentiation_engine compute
(40_modular_adder.md R114, 41_modular_multiplier.md R130, 42_modular_exponentiation.md R140): one law per
unit, which proofs cite instead of unfolding the loops. -/

namespace Sys2Proof.Machine

theorem word_lt_iff {a b : Word} : a < b ↔ a.toNat < b.toNat := Iff.rfl

theorem word_le_iff {a b : Word} : a ≤ b ↔ a.toNat ≤ b.toNat := Iff.rfl

/-- The value of a Word given by its number. -/
theorem word_eq_ofNat {v : Word} {n : Nat} (h : v.toNat = n) : v = BitVec.ofNat 32 n := by
  subst h; simp

/-- A Word's lowest bit and the remainder by 2. -/
theorem word_bit_zero (v : Word) : v.getLsbD 0 = decide (v.toNat % 2 = 1) := by
  simp [BitVec.getLsbD, Nat.testBit_zero]

theorem word_shiftRight_one (v : Word) : (v >>> 1).toNat = v.toNat / 2 := by
  simp [Nat.shiftRight_eq_div_pow]

section Adder

/-- 40_modular_adder.md R110's result law. -/
theorem modAdd_toNat {a b m : Word} (ha : a.toNat < m.toNat) (hb : b.toNat < m.toNat) :
    (modAdd a b m).toNat = (a.toNat + b.toNat) % m.toNat := by
  have hm := m.isLt
  have hmod : (a.toNat + b.toNat) % m.toNat =
      if a.toNat + b.toNat < m.toNat then a.toNat + b.toNat else a.toNat + b.toNat - m.toNat := by
    split
    · exact Nat.mod_eq_of_lt ‹_›
    · rw [Nat.mod_eq_sub_mod (by omega), Nat.mod_eq_of_lt (by omega)]
  rw [hmod]
  simp only [modAdd, BitVec.lt_def, BitVec.le_def, BitVec.toNat_add]
  split
  · split <;> bv_omega
  · split <;> split <;> bv_omega

/-- 40_modular_adder.md R112's result law, on integers that do not go below 0. -/
theorem modSub_toNat {a b m : Word} (ha : a.toNat < m.toNat) (hb : b.toNat < m.toNat) :
    (modSub a b m).toNat = (a.toNat + (m.toNat - b.toNat)) % m.toNat := by
  have hm := m.isLt
  have hmod : (a.toNat + (m.toNat - b.toNat)) % m.toNat =
      if b.toNat ≤ a.toNat then a.toNat - b.toNat else m.toNat - (b.toNat - a.toNat) := by
    split
    · rw [Nat.mod_eq_sub_mod (by omega), Nat.mod_eq_of_lt (by omega)]; omega
    · rw [Nat.mod_eq_of_lt (by omega)]; omega
  rw [hmod]
  simp only [modSub, BitVec.le_def]
  split <;> bv_omega

theorem modAdd_lt {a b m : Word} (ha : a.toNat < m.toNat) (hb : b.toNat < m.toNat) :
    (modAdd a b m).toNat < m.toNat := by
  rw [modAdd_toNat ha hb]; exact Nat.mod_lt _ (by omega)

theorem modSub_lt {a b m : Word} (ha : a.toNat < m.toNat) (hb : b.toNat < m.toNat) :
    (modSub a b m).toNat < m.toNat := by
  rw [modSub_toNat ha hb]; exact Nat.mod_lt _ (by omega)

end Adder

section Multiplier

/-- One pass keeps 41_modular_multiplier.md R130's loop invariant. -/
theorem mulPass_spec {m : Word} {w : MulWork} (hacc : w.acc.toNat < m.toNat) (hxx : w.xx.toNat < m.toNat) :
    (mulPass m w).acc.toNat < m.toNat ∧ (mulPass m w).xx.toNat < m.toNat ∧
      (mulPass m w).yy.toNat = w.yy.toNat / 2 ∧
      ((mulPass m w).acc.toNat + (mulPass m w).xx.toNat * (mulPass m w).yy.toNat) % m.toNat =
        (w.acc.toNat + w.xx.toNat * w.yy.toNat) % m.toNat := by
  have hx := modAdd_toNat hxx hxx
  refine ⟨?_, modAdd_lt hxx hxx, word_shiftRight_one _, ?_⟩
  · simp only [mulPass]; split
    · exact modAdd_lt hacc hxx
    · exact hacc
  · have hy := Nat.div_add_mod w.yy.toNat 2
    have key : ∀ acc' : Nat, acc' ≡ w.acc.toNat + w.xx.toNat * (w.yy.toNat % 2) [MOD m.toNat] →
        (acc' + (modAdd w.xx w.xx m).toNat * (w.yy.toNat / 2)) % m.toNat =
          (w.acc.toNat + w.xx.toNat * w.yy.toNat) % m.toNat := by
      intro acc' h
      have h2 : (modAdd w.xx w.xx m).toNat ≡ w.xx.toNat + w.xx.toNat [MOD m.toNat] := by
        rw [hx]; exact Nat.mod_modEq _ _
      have h3 := h.add (h2.mul_right (w.yy.toNat / 2))
      refine h3.trans (congrArg (· % m.toNat) ?_)
      conv_rhs => rw [← hy]
      ring
    simp only [mulPass, word_shiftRight_one, word_bit_zero]
    apply key
    by_cases hb : w.yy.toNat % 2 = 1
    · simp only [hb, decide_true, ite_true, mul_one]
      rw [modAdd_toNat hacc hxx]; exact Nat.mod_modEq _ _
    · have h0 : w.yy.toNat % 2 = 0 := by omega
      simp [h0]; rfl

/-- The loop, by its invariant: enough passes leave yy at 0. -/
theorem mulLoop_spec (m : Word) : ∀ (n : Nat) (w : MulWork), w.acc.toNat < m.toNat →
    w.xx.toNat < m.toNat → w.yy.toNat < 2 ^ n →
    (mulLoop m n w).acc.toNat = (w.acc.toNat + w.xx.toNat * w.yy.toNat) % m.toNat
  | 0, w, hacc, _, hyy => by
    have : w.yy.toNat = 0 := by simpa using hyy
    simp [mulLoop, this, Nat.mod_eq_of_lt hacc]
  | n + 1, w, hacc, hxx, hyy => by
    rw [mulLoop]
    split
    · rename_i h
      simp [h, Nat.mod_eq_of_lt hacc]
    · obtain ⟨h1, h2, h3, h4⟩ := mulPass_spec hacc hxx
      rw [mulLoop_spec m n _ h1 h2 (by rw [h3]; rw [Nat.pow_succ] at hyy; omega), h4]

/-- 41_modular_multiplier.md R130's result law. -/
theorem modMul_toNat {x y m : Word} (hx : x.toNat < m.toNat) :
    (modMul x y m).toNat = (x.toNat * y.toNat) % m.toNat := by
  have h := mulLoop_spec m 32 ⟨0, x, y⟩ (by simp; omega) hx y.isLt
  simpa [modMul, mulRun] using h

theorem modMul_lt {x y m : Word} (hx : x.toNat < m.toNat) : (modMul x y m).toNat < m.toNat := by
  rw [modMul_toNat hx]; exact Nat.mod_lt _ (by omega)

end Multiplier

section Exponentiation

/-- One pass keeps 42_modular_exponentiation.md R140's loop invariant. -/
theorem powPass_spec {m : Word} {w : PowRun} (hr : w.pow.r.toNat < m.toNat) (hb : w.pow.b.toNat < m.toNat) :
    (powPass m w).pow.r.toNat < m.toNat ∧ (powPass m w).pow.b.toNat < m.toNat ∧
      (powPass m w).pow.e.toNat = w.pow.e.toNat / 2 ∧
      ((powPass m w).pow.r.toNat * (powPass m w).pow.b.toNat ^ (powPass m w).pow.e.toNat) % m.toNat =
        (w.pow.r.toNat * w.pow.b.toNat ^ w.pow.e.toNat) % m.toNat := by
  have hx := modMul_toNat (y := w.pow.b) hb
  refine ⟨?_, modMul_lt hb, word_shiftRight_one _, ?_⟩
  · simp only [powPass]; split
    · exact modMul_lt hr
    · exact hr
  · have hy := Nat.div_add_mod w.pow.e.toNat 2
    have key : ∀ r' : Nat, r' ≡ w.pow.r.toNat * w.pow.b.toNat ^ (w.pow.e.toNat % 2) [MOD m.toNat] →
        (r' * (modMul w.pow.b w.pow.b m).toNat ^ (w.pow.e.toNat / 2)) % m.toNat =
          (w.pow.r.toNat * w.pow.b.toNat ^ w.pow.e.toNat) % m.toNat := by
      intro r' h
      have h2 : (modMul w.pow.b w.pow.b m).toNat ≡ w.pow.b.toNat * w.pow.b.toNat [MOD m.toNat] := by
        rw [hx]; exact Nat.mod_modEq _ _
      have h3 := h.mul (h2.pow (w.pow.e.toNat / 2))
      refine h3.trans (congrArg (· % m.toNat) ?_)
      conv_rhs => rw [← hy, pow_add, pow_mul]
      rw [← pow_two]; ring
    simp only [powPass, word_shiftRight_one, word_bit_zero]
    apply key
    by_cases hbit : w.pow.e.toNat % 2 = 1
    · simp only [hbit, decide_true, ite_true, pow_one]
      rw [modMul_toNat hr]; exact Nat.mod_modEq _ _
    · have h0 : w.pow.e.toNat % 2 = 0 := by omega
      simp [h0]; rfl

/-- The loop, by its invariant: enough passes leave e at 0. -/
theorem powLoop_spec (m : Word) : ∀ (n : Nat) (w : PowRun), w.pow.r.toNat < m.toNat →
    w.pow.b.toNat < m.toNat → w.pow.e.toNat < 2 ^ n →
    (powLoop m n w).pow.r.toNat = (w.pow.r.toNat * w.pow.b.toNat ^ w.pow.e.toNat) % m.toNat
  | 0, w, hr, _, he => by
    have : w.pow.e.toNat = 0 := by simpa using he
    simp [powLoop, this, Nat.mod_eq_of_lt hr]
  | n + 1, w, hr, hb, he => by
    rw [powLoop]
    split
    · rename_i h
      simp [h, Nat.mod_eq_of_lt hr]
    · obtain ⟨h1, h2, h3, h4⟩ := powPass_spec hr hb
      rw [powLoop_spec m n _ h1 h2 (by rw [h3]; rw [Nat.pow_succ] at he; omega), h4]

/-- The engine's own registers do not depend on what the multiplier held before. -/
theorem powLoop_pow_congr (m : Word) : ∀ (n : Nat) (w w' : PowRun), w.pow = w'.pow →
    (powLoop m n w).pow = (powLoop m n w').pow
  | 0, _, _, h => h
  | n + 1, w, w', h => by
    simp only [powLoop, h]
    split
    · exact h
    · exact powLoop_pow_congr m n _ _ (by simp [powPass, h])

theorem powRun_pow (base exp m : Word) (mul : MulWork) :
    (powRun base exp m mul).pow = (powRun base exp m ⟨0, 0, 0⟩).pow :=
  powLoop_pow_congr m 32 _ _ rfl

/-- 42_modular_exponentiation.md R140's result law, for a base below the modulus. -/
theorem modPow_toNat {b e m : Word} (hm : 2 ≤ m.toNat) (hb : b.toNat < m.toNat) :
    (modPow b e m).toNat = b.toNat ^ e.toNat % m.toNat := by
  have h := powLoop_spec m 32 ⟨⟨1, b, e⟩, ⟨0, 0, 0⟩⟩ (by simp; omega) hb e.isLt
  simpa [modPow, powRun] using h

/-- "ModPow(x, 0, mod) = 1 for any x" (42_modular_exponentiation.md R140). -/
theorem modPow_zero (b m : Word) : modPow b 0 m = 1 := by
  simp [modPow, powRun, powLoop]

end Exponentiation

end Sys2Proof.Machine
end

