-- ==== Sys2Proof/Laws/Encoding.lean ====
section
/-! SUPPORT. The fields of a command word, read from the word that `formatC` builds (30_encoding.md R90). -/

namespace Sys2Proof

section FormatC
variable {opc : Nat} (hopc : opc < 256) (rd rs1 rs2 rm : RegNum)
include hopc

/-- The number of a command word. -/
theorem formatC_toNat :
    (formatC opc rd rs1 rs2 rm).toNat =
      opc + 2 ^ 8 * rd.val + 2 ^ 12 * rs1.val + 2 ^ 16 * rs2.val + 2 ^ 20 * rm.val := by
  simp only [formatC, BitVec.toNat_ofNat]
  exact Nat.mod_eq_of_lt (by omega)

theorem opcOf_formatC : (opcOf (formatC opc rd rs1 rs2 rm)).toNat = opc := by
  simp only [opcOf, BitVec.extractLsb'_toNat, formatC_toNat hopc, Nat.shiftRight_eq_div_pow]
  omega

theorem rsvOf_formatC : rsvOf (formatC opc rd rs1 rs2 rm) = 0 := by
  apply BitVec.eq_of_toNat_eq
  simp only [rsvOf, BitVec.extractLsb'_toNat, formatC_toNat hopc, Nat.shiftRight_eq_div_pow]
  simp
  omega

theorem rdField_formatC : rdField (formatC opc rd rs1 rs2 rm) = rd := by
  apply Fin.ext
  simp only [rdField, regField, BitVec.extractLsb'_toNat, formatC_toNat hopc, Nat.shiftRight_eq_div_pow]
  omega

theorem rs1Field_formatC : rs1Field (formatC opc rd rs1 rs2 rm) = rs1 := by
  apply Fin.ext
  simp only [rs1Field, regField, BitVec.extractLsb'_toNat, formatC_toNat hopc, Nat.shiftRight_eq_div_pow]
  omega

theorem rs2Field_formatC : rs2Field (formatC opc rd rs1 rs2 rm) = rs2 := by
  apply Fin.ext
  simp only [rs2Field, regField, BitVec.extractLsb'_toNat, formatC_toNat hopc, Nat.shiftRight_eq_div_pow]
  omega

theorem rmField_formatC : rmField (formatC opc rd rs1 rs2 rm) = rm := by
  apply Fin.ext
  simp only [rmField, regField, BitVec.extractLsb'_toNat, formatC_toNat hopc, Nat.shiftRight_eq_div_pow]
  omega

end FormatC

end Sys2Proof
end

