-- ==== Sys2Proof/Laws/ExtendedGcd.lean ====
section
/-! SUPPORT. What the extended_gcd_unit computes (44_extended_gcd.md R170, R172, R180). -/

namespace Sys2Proof.Machine

section Division

/-- The "accumulated subtraction" of 44_extended_gcd.md R170: take r2 off r while r >= r2 and count. -/
def subtractLoop (r2 : Nat) : Nat → Nat → Nat → Nat × Nat
  | 0, q, r => (q, r)
  | n + 1, q, r => if r2 ≤ r then subtractLoop r2 n (q + 1) (r - r2) else (q, r)

/-- Accumulated subtraction is division with remainder. -/
theorem subtractLoop_eq_div_mod {r2 : Nat} (h : 0 < r2) : ∀ (n q r : Nat), r < n →
    subtractLoop r2 n q r = (q + r / r2, r % r2)
  | 0, _, _, hr => absurd hr (by omega)
  | n + 1, q, r, hr => by
    rw [subtractLoop]
    split
    · rename_i hle
      rw [subtractLoop_eq_div_mod h n _ _ (by omega)]
      have h1 := Nat.div_eq_sub_div h hle
      have h2 := Nat.mod_eq_sub_mod hle
      rw [h1, h2]; congr 1; omega
    · rw [Nat.div_eq_of_lt (by omega), Nat.mod_eq_of_lt (by omega)]; simp

end Division

/-- Two passes of Euclid's algorithm halve the smaller number. -/
theorem euclid_halves {v r k : Nat} (hr : 0 < r) (hrv : r < v) (hv : v < 2 ^ (k + 1)) : v % r < 2 ^ k := by
  have h1 := Nat.mod_lt v hr
  have h2 : v % r ≤ v - r := by
    rw [Nat.mod_eq_sub_mod (by omega)]; exact Nat.mod_le _ _
  rw [Nat.pow_succ] at hv
  omega

section Gcd

/-- 44_extended_gcd.md R180: with passes enough, the loop ends at the greatest common divisor. -/
theorem gcdLoop_spec : ∀ (k n : Nat) (w : GcdWork), w.v.toNat < 2 ^ k → 2 * k + 1 ≤ n →
    (gcdLoop n w).u.toNat = Nat.gcd w.u.toNat w.v.toNat ∧ (gcdLoop n w).v = 0
  | 0, n + 1, w, hv, _ => by
    have h0 : w.v = 0 := by apply BitVec.eq_of_toNat_eq; simp; omega
    simp [gcdLoop, h0]
  | k + 1, n + 2, w, hv, hn => by
    rw [gcdLoop]
    split
    · rename_i h0; simp [h0]
    · rename_i h0
      have hpos : 0 < w.v.toNat := by
        rcases Nat.eq_zero_or_pos w.v.toNat with h | h
        · exact absurd (BitVec.eq_of_toNat_eq (by simpa using h)) h0
        · exact h
      have hg : Nat.gcd (w.v.toNat) (w.u.toNat % w.v.toNat) = Nat.gcd w.u.toNat w.v.toNat := by
        rw [Nat.gcd_comm, ← Nat.gcd_rec, Nat.gcd_comm]
      rw [gcdLoop]
      split
      · rename_i h1
        have h1' : w.u.toNat % w.v.toNat = 0 := by
          have := congrArg BitVec.toNat h1; simpa [gcdPass] using this
        refine ⟨?_, h1⟩
        rw [← hg, h1']; simp [gcdPass]
      · rename_i h1
        have h1' : 0 < w.u.toNat % w.v.toNat := by
          rcases Nat.eq_zero_or_pos (w.u.toNat % w.v.toNat) with h | h
          · exact absurd (BitVec.eq_of_toNat_eq (by simpa [gcdPass] using h)) h1
          · exact h
        have ih := gcdLoop_spec k n (gcdPass (gcdPass w))
          (by simpa [gcdPass] using euclid_halves h1' (Nat.mod_lt _ hpos) hv) (by omega)
        refine ⟨?_, ih.2⟩
        rw [ih.1, ← hg]
        simp only [gcdPass, BitVec.toNat_umod]
        rw [Nat.gcd_comm, ← Nat.gcd_rec, Nat.gcd_comm]

/-- 44_extended_gcd.md R180's result. -/
theorem gcdWord_toNat (a b : Word) : (gcdWord a b).toNat = Nat.gcd a.toNat b.toNat :=
  (gcdLoop_spec 32 65 ⟨a, b⟩ b.isLt (by omega)).1

end Gcd

section Inverse

/-- 44_extended_gcd.md R170's invariant: t1*a ≡ r1 and t2*a ≡ r2 modulo m. -/
def InvWork.Bezout (a m : Nat) (w : InvWork) : Prop :=
  (m : Int) ∣ w.t1 * a - w.r1.toNat ∧ (m : Int) ∣ w.t2 * a - w.r2.toNat

/-- One pass keeps the invariant. -/
theorem invPass_bezout {a m : Nat} {w : InvWork} (h : w.Bezout a m) : (invPass w).Bezout a m := by
  refine ⟨h.2, ?_⟩
  obtain ⟨⟨k1, h1⟩, ⟨k2, h2⟩⟩ := h
  refine ⟨k1 - (w.r1.toNat / w.r2.toNat : Nat) * k2, ?_⟩
  have hd : ((w.r1.toNat % w.r2.toNat : Nat) : Int) =
      w.r1.toNat - (w.r1.toNat / w.r2.toNat : Nat) * w.r2.toNat := by
    have := Nat.div_add_mod w.r1.toNat w.r2.toNat
    have h' : ((w.r2.toNat * (w.r1.toNat / w.r2.toNat) + w.r1.toNat % w.r2.toNat : Nat) : Int) =
      w.r1.toNat := by rw [this]
    push_cast at h' ⊢; linarith
  simp only [invPass, BitVec.toNat_umod, hd]
  linear_combination h1 - ((w.r1.toNat / w.r2.toNat : Nat) : Int) * h2

theorem invLoop_bezout {a m : Nat} : ∀ (n : Nat) (w : InvWork), w.Bezout a m → (invLoop n w).Bezout a m
  | 0, _, h => h
  | n + 1, w, h => by
    rw [invLoop]
    split
    · exact h
    · exact invLoop_bezout n _ (invPass_bezout h)

/-- The remainders of the extended loop are those of the plain one. -/
theorem invLoop_remainders : ∀ (n : Nat) (w : InvWork),
    (invLoop n w).r1 = (gcdLoop n ⟨w.r1, w.r2⟩).u ∧ (invLoop n w).r2 = (gcdLoop n ⟨w.r1, w.r2⟩).v
  | 0, _ => ⟨rfl, rfl⟩
  | n + 1, w => by
    simp only [invLoop, gcdLoop]
    split
    · exact ⟨rfl, rfl⟩
    · exact invLoop_remainders n (invPass w)

/-- At the end r1 = gcd(a, m) (44_extended_gcd.md R170). -/
theorem invRun_r1 (a m : Word) : (invRun a m).r1.toNat = Nat.gcd m.toNat a.toNat := by
  rw [invRun, (invLoop_remainders _ _).1]
  exact (gcdLoop_spec 32 65 ⟨m, a⟩ a.isLt (by omega)).1

/-- The Bezout relation of the result. -/
theorem invRun_bezout (a m : Word) : (invRun a m).Bezout a.toNat m.toNat :=
  invLoop_bezout _ _ ⟨⟨-1, by simp⟩, ⟨0, by simp⟩⟩

/-- No inverse: the sentinel (44_extended_gcd.md R172). -/
theorem modInv_of_not_coprime {a m : Word} (h : Nat.gcd a.toNat m.toNat ≠ 1) : modInv a m = 0 := by
  rw [modInv, if_neg]
  intro h1
  apply h
  rw [Nat.gcd_comm, ← invRun_r1, h1]; rfl

/-- An inverse: below m, and a * v is 1 modulo m (44_extended_gcd.md R172). -/
theorem modInv_of_coprime {a m : Word} (hm : 2 ≤ m.toNat) (h : Nat.gcd a.toNat m.toNat = 1) :
    (modInv a m).toNat < m.toNat ∧ (a.toNat * (modInv a m).toNat) % m.toNat = 1 := by
  have hr : (invRun a m).r1 = 1 := by
    apply BitVec.eq_of_toNat_eq
    rw [invRun_r1, Nat.gcd_comm, h]; rfl
  have hmpos : (0 : Int) < m.toNat := by omega
  have h0 := Int.emod_nonneg (invRun a m).t1 (ne_of_gt hmpos)
  have h1 := Int.emod_lt_of_pos (invRun a m).t1 hmpos
  have hm32 := m.isLt
  obtain ⟨t, ht⟩ : ∃ t : Nat, (invRun a m).t1 % (m.toNat : Int) = t := ⟨_, (Int.toNat_of_nonneg h0).symm⟩
  have hv : (modInv a m).toNat = t := by
    rw [modInv, if_pos hr, ht, BitVec.toNat_ofInt]
    rw [ht] at h1
    have : ((t : Int) % ((2 ^ 32 : Nat) : Int)) = t := Int.emod_eq_of_lt (by omega) (by push_cast; omega)
    rw [this]; rfl
  refine ⟨by rw [hv]; omega, ?_⟩
  obtain ⟨k, hk⟩ := (invRun_bezout a m).1
  rw [hr] at hk
  have hdiv := Int.emod_add_mul_ediv (invRun a m).t1 (m.toNat : Int)
  rw [ht] at hdiv
  have hmod : ((a.toNat * t : Nat) : Int) % (m.toNat : Int) = 1 := by
    have hmod' : Int.ModEq m.toNat ((a.toNat * t : Nat) : Int) 1 := by
      refine Int.modEq_iff_dvd.mpr ⟨(invRun a m).t1 / m.toNat * a.toNat - k, ?_⟩
      have hone : (((1 : Word).toNat : Nat) : Int) = 1 := rfl
      rw [hone] at hk
      push_cast
      linear_combination -hk - (a.toNat : Int) * hdiv
    exact Eq.trans hmod' (Int.emod_eq_of_lt (by omega) (by omega))
  rw [hv]; exact_mod_cast hmod

end Inverse

end Sys2Proof.Machine
end

