-- ==== Sys2Proof/Laws/MillerRabin.lean ====
section
/-! SUPPORT. What the Miller-Rabin controller computes in one round (43_miller_rabin.md R154, R156). -/

namespace Sys2Proof.Machine

/-- The base is exact: no Word step loses a bit (43_miller_rabin.md R154). -/
theorem baseOf_toNat {c : Word} (r : Word) (hc : 3 ≤ c.toNat) :
    (baseOf c r).toNat = baseNat c.toNat r.toNat := by
  have hr := r.isLt
  have hc32 := c.isLt
  have h : r.toNat * (c.toNat - 2) / 2 ^ 32 < c.toNat - 2 := by
    rw [Nat.div_lt_iff_lt_mul (by norm_num)]
    rw [Nat.mul_comm (c.toNat - 2)]
    exact Nat.mul_lt_mul_of_lt_of_le hr (le_refl _) (by omega)
  simp only [baseOf, baseNat, BitVec.toNat_ofNat]
  exact Nat.mod_eq_of_lt (by omega)

/-- "For every Word r, 1 <= a <= c - 2" (43_miller_rabin.md R154). -/
theorem baseNat_range {c r : Nat} (hc : 3 ≤ c) (hr : r < 2 ^ 32) : 1 ≤ baseNat c r ∧ baseNat c r ≤ c - 2 := by
  have h : r * (c - 2) / 2 ^ 32 < c - 2 := by
    rw [Nat.div_lt_iff_lt_mul (by norm_num), Nat.mul_comm (c - 2)]
    exact Nat.mul_lt_mul_of_lt_of_le hr (le_refl _) (by omega)
  simp only [baseNat]
  omega

section OddPart

/-- The loop keeps the product d * 2^s, and ends at an odd d when it has passes enough. -/
theorem oddPartLoop_spec : ∀ (n : Nat) (d : Word) (e : Nat), 0 < d.toNat → d.toNat < 2 ^ n →
    (oddPartLoop n d e).1.toNat * 2 ^ (oddPartLoop n d e).2 = d.toNat * 2 ^ e ∧
      (oddPartLoop n d e).1.toNat % 2 = 1 ∧ e ≤ (oddPartLoop n d e).2
  | 0, d, _, h0, h1 => absurd h1 (by simp; omega)
  | n + 1, d, e, h0, h1 => by
    rw [oddPartLoop]
    split
    · rename_i h
      rw [word_bit_zero] at h
      exact ⟨rfl, by simpa using h, le_refl _⟩
    · rename_i h
      rw [word_bit_zero] at h
      have hd : d.toNat % 2 = 0 := by
        have : d.toNat % 2 ≠ 1 := by simpa using h
        omega
      have hs := word_shiftRight_one d
      rw [Nat.pow_succ] at h1
      obtain ⟨i1, i2, i3⟩ := oddPartLoop_spec n (d >>> 1) (e + 1) (by rw [hs]; omega) (by rw [hs]; omega)
      refine ⟨?_, i2, by omega⟩
      rw [i1, hs, Nat.pow_succ]
      have : d.toNat = d.toNat / 2 * 2 := by omega
      conv_rhs => rw [this]
      ring

/-- c - 1 = d * 2^s, d odd (43_miller_rabin.md R156). -/
theorem oddPart_spec {v : Word} (h : 0 < v.toNat) :
    (oddPart v).1.toNat * 2 ^ (oddPart v).2 = v.toNat ∧ (oddPart v).1.toNat % 2 = 1 := by
  obtain ⟨h1, h2, _⟩ := oddPartLoop_spec 32 v 0 h v.isLt
  exact ⟨by simpa [oddPart] using h1, h2⟩

/-- s >= 1 for an even c - 1 (43_miller_rabin.md R156). -/
theorem oddPart_twos_pos {v : Word} (h : 0 < v.toNat) (heven : v.toNat % 2 = 0) : 1 ≤ (oddPart v).2 := by
  obtain ⟨h1, h2⟩ := oddPart_spec h
  rcases Nat.eq_zero_or_pos (oddPart v).2 with h0 | h0
  · rw [h0] at h1; omega
  · exact h0

end OddPart

section Round

/-- The squarings, in numbers: the loop passes exactly when c - 1 comes up within its squarings.  1 never
comes up before it (1 squared is 1, never c - 1). -/
theorem squareLoop_passed {c : Word} (hc : 3 ≤ c.toNat) : ∀ (n : Nat) (y : Word) (mul : MulWork),
    y.toNat < c.toNat →
    ((squareLoop c n y mul).passed = true ↔ ∃ j, 1 ≤ j ∧ j ≤ n ∧ y.toNat ^ 2 ^ j % c.toNat = c.toNat - 1)
  | 0, y, mul, _ => by
    simp only [squareLoop]
    constructor
    · intro h; cases h
    · rintro ⟨j, h1, h2, _⟩; omega
  | n + 1, y, mul, hy => by
    have hsq : (modMul y y c).toNat = y.toNat ^ 2 % c.toNat := by rw [modMul_toNat hy, pow_two]
    have hc1 : (c - 1).toNat = c.toNat - 1 := by
      have := c.isLt
      rw [BitVec.toNat_sub_of_le] <;> simp [BitVec.le_def]; omega
    have hpow : ∀ j, y.toNat ^ 2 ^ (j + 1) % c.toNat = (modMul y y c).toNat ^ 2 ^ j % c.toNat := by
      intro j
      rw [hsq, ← Nat.pow_mod, ← pow_mul, pow_succ 2 j, Nat.mul_comm]
    rw [squareLoop]
    split
    · rename_i h
      simp only [true_iff]
      refine ⟨1, le_refl _, by omega, ?_⟩
      have := congrArg BitVec.toNat h
      rw [hc1, hsq] at this
      simpa using this
    · rename_i h
      split
      · rename_i h1
        have hone : y.toNat ^ 2 % c.toNat = 1 := by
          have := congrArg BitVec.toNat h1
          rw [hsq] at this; simpa using this
        simp only [Bool.false_eq_true, false_iff]
        rintro ⟨j, hj1, _, hj⟩
        obtain ⟨i, rfl⟩ : ∃ i, j = i + 1 := ⟨j - 1, by omega⟩
        rw [hpow i, hsq, hone] at hj
        rw [one_pow, Nat.mod_eq_of_lt (by omega)] at hj
        omega
      · rw [squareLoop_passed hc n _ _ (modMul_lt hy)]
        constructor
        · rintro ⟨j, hj1, hj2, hj⟩
          exact ⟨j + 1, by omega, by omega, by rw [hpow]; exact hj⟩
        · rintro ⟨j, hj1, hj2, hj⟩
          obtain ⟨i, rfl⟩ : ∃ i, j = i + 1 := ⟨j - 1, by omega⟩
          refine ⟨i, ?_, by omega, by rw [← hpow]; exact hj⟩
          rcases Nat.eq_zero_or_pos i with h0 | h0
          · subst h0
            exfalso; apply h
            apply BitVec.eq_of_toNat_eq
            rw [hc1, ← hj, hsq]; rfl
          · exact h0

/-- What the multiplier held before plays no part in a round's outcome. -/
theorem squareLoop_mul (c : Word) (y : Word) (mul mul' : MulWork) : ∀ n : Nat,
    (squareLoop c n y mul).passed = (squareLoop c n y mul').passed
  | 0 => rfl
  | _ + 1 => rfl

/-- A round passes exactly when its base is a strong liar or the candidate behaves as a prime for it
(43_miller_rabin.md R156, R159). -/
theorem roundPasses_iff {c d a : Word} {e : Nat} (hc : 3 ≤ c.toNat) (ha : a.toNat < c.toNat) (he : 1 ≤ e) :
    roundPasses c d e a = true ↔ StrongLiar c.toNat d.toNat e a.toNat := by
  have hy := modPow_toNat (e := d) (by omega : 2 ≤ c.toNat) ha
  have hc1 : (c - 1).toNat = c.toNat - 1 := by
    have := c.isLt
    rw [BitVec.toNat_sub_of_le] <;> simp [BitVec.le_def]; omega
  have hlt : (modPow a d c).toNat < c.toNat := by rw [hy]; exact Nat.mod_lt _ (by omega)
  have hpow : ∀ j, (modPow a d c).toNat ^ 2 ^ j % c.toNat = a.toNat ^ (d.toNat * 2 ^ j) % c.toNat := by
    intro j; rw [hy, ← Nat.pow_mod, ← pow_mul]
  have hone : modPow a d c = 1 ↔ a.toNat ^ d.toNat % c.toNat = 1 := by
    rw [← hy]
    exact ⟨fun h => by rw [h]; rfl, fun h => BitVec.eq_of_toNat_eq (by rw [h]; rfl)⟩
  have hneg : modPow a d c = c - 1 ↔ a.toNat ^ (d.toNat * 2 ^ 0) % c.toNat = c.toNat - 1 := by
    rw [← hpow 0]
    simp only [pow_zero, pow_one, Nat.mod_eq_of_lt hlt]
    exact ⟨fun h => by rw [h, hc1], fun h => BitVec.eq_of_toNat_eq (by rw [h, hc1])⟩
  simp only [roundPasses, roundOf, StrongLiar]
  split
  · rename_i h
    simp only [true_iff]
    rcases h with h | h
    · exact .inl (hone.mp h)
    · exact .inr ⟨0, by omega, hneg.mp h⟩
  · rename_i h
    push Not at h
    rw [squareLoop_passed hc _ _ _ hlt]
    constructor
    · rintro ⟨j, _, hj2, hj⟩
      exact .inr ⟨j, by omega, by rw [← hpow]; exact hj⟩
    · rintro (h1 | ⟨j, hj2, hj⟩)
      · exact absurd (hone.mpr h1) h.1
      · refine ⟨j, ?_, by omega, by rw [hpow]; exact hj⟩
        rcases Nat.eq_zero_or_pos j with h0 | h0
        · subst h0; exact absurd (hneg.mpr hj) h.2
        · exact h0

end Round

end Sys2Proof.Machine
end

