-- ==== Sys2Proof/Laws/PerInstr.lean ====
section
/-! SUPPORT. Statements made command by command: the family EncodeLegal says that a command's word has
RSV = 0 and its own row's opcode (30_encoding.md R90, R93, R97). -/

namespace Sys2Proof.Laws.EncodeLegal

/-- The word of a command has RSV = 0, and its OPC is its row's. -/
def Statement (i : Instr) : Prop :=
  rsvOf (encode i) = 0 ∧ (opcOf (encode i)).toNat = i.row.pattern.toNat

theorem madd (rd rs1 rs2 rm : RegNum) : Statement (.madd rd rs1 rs2 rm) :=
  ⟨rsvOf_formatC (by decide) rd rs1 rs2 rm, opcOf_formatC (by decide) rd rs1 rs2 rm⟩

theorem msub (rd rs1 rs2 rm : RegNum) : Statement (.msub rd rs1 rs2 rm) :=
  ⟨rsvOf_formatC (by decide) rd rs1 rs2 rm, opcOf_formatC (by decide) rd rs1 rs2 rm⟩

theorem mmul (rd rs1 rs2 rm : RegNum) : Statement (.mmul rd rs1 rs2 rm) :=
  ⟨rsvOf_formatC (by decide) rd rs1 rs2 rm, opcOf_formatC (by decide) rd rs1 rs2 rm⟩

theorem mpow (rd rs1 rs2 rm : RegNum) : Statement (.mpow rd rs1 rs2 rm) :=
  ⟨rsvOf_formatC (by decide) rd rs1 rs2 rm, opcOf_formatC (by decide) rd rs1 rs2 rm⟩

theorem mrt (rd rs1 rs2 : RegNum) : Statement (.mrt rd rs1 rs2) :=
  ⟨rsvOf_formatC (by decide) rd rs1 rs2 0, opcOf_formatC (by decide) rd rs1 rs2 0⟩

theorem minv (rd rs1 rm : RegNum) : Statement (.minv rd rs1 rm) :=
  ⟨rsvOf_formatC (by decide) rd rs1 0 rm, opcOf_formatC (by decide) rd rs1 0 rm⟩

theorem gcd (rd rs1 rs2 : RegNum) : Statement (.gcd rd rs1 rs2) :=
  ⟨rsvOf_formatC (by decide) rd rs1 rs2 0, opcOf_formatC (by decide) rd rs1 rs2 0⟩

end Sys2Proof.Laws.EncodeLegal
end

