-- ==== Sys2Proof/Laws/State.lean ====
section
/-! SUPPORT. Small lemmas of State's record updates and of the shared operations over it. -/

namespace Sys2Proof.Machine

section Registers
variable (s : State) (i j : RegNum) (v : Word)

theorem State.reg_setReg : (s.setReg i v).reg j = if j = i then v else s.reg j := by
  simp only [State.reg, State.setReg, Vector.getElem_set]
  by_cases h : j = i
  · simp [h]
  · have h' : i.val ≠ j.val := fun e => h (Fin.ext e.symm)
    simp [h, h']

theorem State.marked_setReg : (s.setReg i v).marked j = if j = i then true else s.marked j := by
  simp only [State.marked, State.setReg, Vector.getElem_set]
  by_cases h : j = i
  · simp [h]
  · have h' : i.val ≠ j.val := fun e => h (Fin.ext e.symm)
    simp [h, h']

@[simp] theorem State.reg_setReg_self : (s.setReg i v).reg i = v := by simp [State.reg_setReg]
@[simp] theorem State.marked_setReg_self : (s.setReg i v).marked i = true := by simp [State.marked_setReg]

theorem State.reg_setReg_of_ne (h : j ≠ i) : (s.setReg i v).reg j = s.reg j := by
  simp [State.reg_setReg, h]

theorem State.marked_setReg_of_ne (h : j ≠ i) : (s.setReg i v).marked j = s.marked j := by
  simp [State.marked_setReg, h]

end Registers

/-- Two states with the same register file read the same. -/
theorem State.reg_congr {s t : State} (h : t.x = s.x) (r : RegNum) : t.reg r = s.reg r := by
  simp [State.reg, h]

/-- Two states with the same marks are marked the same. -/
theorem State.marked_congr {s t : State} (h : t.written = s.written) (r : RegNum) :
    t.marked r = s.marked r := by
  simp [State.marked, h]

section Fields
variable (s : State) (rd : RegNum) (v : Word) (code : ECode) (w : Word)

@[simp] theorem State.complete_reg_self : (s.complete rd v).reg rd = v := State.reg_setReg_self s rd v
@[simp] theorem State.complete_marked_self : (s.complete rd v).marked rd = true :=
  State.marked_setReg_self s rd v
@[simp] theorem State.complete_done : (s.complete rd v).done = true := rfl
@[simp] theorem State.complete_err : (s.complete rd v).err = false := rfl
@[simp] theorem State.complete_ecode : (s.complete rd v).ecode = .none := rfl
@[simp] theorem State.complete_phase : (s.complete rd v).phase = .idle := rfl
@[simp] theorem State.complete_work : (s.complete rd v).work = s.work := rfl
@[simp] theorem State.complete_ieDone : (s.complete rd v).ieDone = s.ieDone := rfl
@[simp] theorem State.complete_ieRand : (s.complete rd v).ieRand = s.ieRand := rfl
@[simp] theorem State.complete_coll : (s.complete rd v).coll = s.coll := rfl
@[simp] theorem State.complete_cmdLatch : (s.complete rd v).cmdLatch = s.cmdLatch := rfl
@[simp] theorem State.complete_rst : (s.complete rd v).rst = s.rst := rfl
@[simp] theorem State.complete_resp : (s.complete rd v).resp = s.resp := rfl
@[simp] theorem State.complete_freeCtr : (s.complete rd v).freeCtr = s.freeCtr := rfl
@[simp] theorem State.complete_turns : (s.complete rd v).turns = s.turns := rfl

@[simp] theorem State.raise_x : (s.raise code).x = s.x := rfl
@[simp] theorem State.raise_written : (s.raise code).written = s.written := rfl
@[simp] theorem State.raise_done : (s.raise code).done = true := rfl
@[simp] theorem State.raise_err : (s.raise code).err = true := rfl
@[simp] theorem State.raise_ecode : (s.raise code).ecode = code := rfl
@[simp] theorem State.raise_phase : (s.raise code).phase = .idle := rfl
@[simp] theorem State.raise_work : (s.raise code).work = s.work := rfl
@[simp] theorem State.raise_coll : (s.raise code).coll = s.coll := rfl
@[simp] theorem State.raise_cmdLatch : (s.raise code).cmdLatch = s.cmdLatch := rfl
@[simp] theorem State.raise_rst : (s.raise code).rst = s.rst := rfl
@[simp] theorem State.raise_turns : (s.raise code).turns = s.turns := rfl

@[simp] theorem State.requestDraw_x : s.requestDraw.x = s.x := rfl
@[simp] theorem State.requestDraw_phase : s.requestDraw.phase = .waitRand := rfl
@[simp] theorem State.requestDraw_work : s.requestDraw.work = s.work := rfl
@[simp] theorem State.requestDraw_done : s.requestDraw.done = s.done := rfl
@[simp] theorem State.requestDraw_turns : s.requestDraw.turns = s.turns := rfl

@[simp] theorem State.giveDraw_x : (s.giveDraw v).x = s.x := rfl
@[simp] theorem State.giveDraw_phase : (s.giveDraw v).phase = .exec := rfl
@[simp] theorem State.giveDraw_draw : (s.giveDraw v).work.mr.draw = some v := rfl
@[simp] theorem State.giveDraw_cmdLatch : (s.giveDraw v).cmdLatch = s.cmdLatch := rfl
@[simp] theorem State.giveDraw_turns : (s.giveDraw v).turns = s.turns := rfl

@[simp] theorem State.softReset_x : s.softReset.x = s.x := rfl
@[simp] theorem State.softReset_written : s.softReset.written = s.written := rfl
@[simp] theorem State.softReset_phase : s.softReset.phase = .idle := rfl
@[simp] theorem State.softReset_cmdLatch : s.softReset.cmdLatch = 0 := rfl
@[simp] theorem State.softReset_turns : s.softReset.turns = s.turns := rfl
@[simp] theorem State.hardReset_phase : s.hardReset.phase = .idle := rfl
@[simp] theorem State.hardReset_turns : s.hardReset.turns = s.turns := rfl

@[simp] theorem State.setEnables_x : (s.setEnables v).x = s.x := rfl
@[simp] theorem State.setEnables_phase : (s.setEnables v).phase = s.phase := rfl
@[simp] theorem State.ackStatus_x : (s.ackStatus v).x = s.x := rfl
@[simp] theorem State.ackStatus_phase : (s.ackStatus v).phase = s.phase := rfl
@[simp] theorem State.collide_x : s.collide.x = s.x := rfl
@[simp] theorem State.collide_phase : s.collide.phase = s.phase := rfl
@[simp] theorem State.collide_coll : s.collide.coll = true := rfl

@[simp] theorem State.accept_phase : (s.accept w).phase = .exec := rfl
@[simp] theorem State.accept_cmdLatch : (s.accept w).cmdLatch = w := rfl
@[simp] theorem State.accept_done : (s.accept w).done = false := rfl
@[simp] theorem State.accept_err : (s.accept w).err = false := rfl
@[simp] theorem State.accept_ecode : (s.accept w).ecode = .none := rfl
@[simp] theorem State.accept_draw : (s.accept w).work.mr.draw = none := rfl

end Fields

/-- Acceptance of a command, field by field (10_state.md R35). -/
theorem State.accept_of_command {w : Word} {i : Instr} (h : decode w = .command i) (s : State) :
    s.accept w =
      { s with
        done := false, err := false, ecode := .none, cmdLatch := w, phase := .exec
        work := { s.work with
          opA := s.reg (rs1Of i)
          opB := s.latched (rs2Of i) s.work.opB
          opM := s.latched (rmOf i) s.work.opM
          mr := { s.work.mr with draw := none } } } := by
  simp only [State.accept, h]
  rfl

/-- Acceptance of an illegal word, field by field (30_encoding.md R96). -/
theorem State.accept_of_illegal {w : Word} {why : IllegalReason} (h : decode w = .illegal why) (s : State) :
    s.accept w =
      { s with
        done := false, err := false, ecode := .none, cmdLatch := w, phase := .exec
        work := { s.work with mr := { s.work.mr with draw := none } } } := by
  simp only [State.accept, h]
  rfl

/-- What a completion leaves, said once (10_state.md R37).  `u` is the state with the units' hidden
registers as the run left them. -/
theorem completes_of_work {s : State} {w : Work} (rd : RegNum) (v : Word)
    (hA : w.opA = s.work.opA) (hB : w.opB = s.work.opB) (hM : w.opM = s.work.opM) :
    Completes s rd v (State.complete { s with work := w } rd v) where
  result := State.complete_reg_self _ rd v
  marked := State.complete_marked_self _ rd v
  otherRegs r h := State.reg_setReg_of_ne _ rd r v h
  otherMarks r h := State.marked_setReg_of_ne _ rd r v h
  done := rfl
  err := rfl
  ecode := rfl
  phase := rfl
  surroundings := ⟨rfl, rfl, rfl, rfl, hA, hB, hM, rfl, rfl, rfl, rfl⟩

/-- What an error completion leaves, said once (60_exceptions.md R214). -/
theorem endsInError_raise (s : State) (code : ECode) : EndsInError s code (s.raise code) where
  regs _ := rfl
  marks _ := rfl
  done := rfl
  err := rfl
  ecode := rfl
  phase := rfl
  work := rfl
  surroundings := ⟨rfl, rfl, rfl, rfl, rfl, rfl, rfl, rfl, rfl, rfl, rfl⟩

/-- What a draw request leaves, said once (43_miller_rabin.md R151). -/
theorem awaitsDraw_of_work {s : State} {w : Work} (hA : w.opA = s.work.opA) (hB : w.opB = s.work.opB)
    (hM : w.opM = s.work.opM) (hd : w.mr.draw = none) :
    AwaitsDraw s (State.requestDraw { s with work := w }) where
  regs _ := rfl
  marks _ := rfl
  done := rfl
  err := rfl
  ecode := rfl
  phase := rfl
  noDraw := hd
  surroundings := ⟨rfl, rfl, rfl, rfl, hA, hB, hM, rfl, rfl, rfl, rfl⟩

end Sys2Proof.Machine
end

