-- ==== Sys2Proof/Laws/Step.lean ====
section
/-! SUPPORT. What a command, a host access and a step can do, each said once. -/

namespace Sys2Proof.Machine

section Window

theorem coreBase_mod : Config.coreBase % 256 = 0 := by simp [Config.coreBase]

/-- An offset of the window is found at CORE_BASE + offset. -/
theorem windowOffset_coreBase {off : Nat} (h : off < 256) : windowOffset (Config.coreBase + off) = some off := by
  simp [windowOffset, h]

/-- An address of the window is CORE_BASE + its offset. -/
theorem eq_of_windowOffset {addr off : Nat} (h : windowOffset addr = some off) :
    addr = Config.coreBase + off ∧ off < 256 := by
  simp only [windowOffset] at h
  split at h
  · simp only [Option.some.injEq] at h; omega
  · cases h

/-- The map sends a register's offset to it (20_memory.md R63). -/
theorem target_regOffset (i : RegNum) : target (regOffset i) = .reg i := by
  revert i; decide

/-- The map, read backwards: only CTRL, STATUS, CMD and RAND stand at their offsets, and a register at its
own. -/
theorem target_cases {off : Nat} (h4 : off % 4 = 0) (h : off < 256) :
    (target off = .ctrl ∧ off = 0x000) ∨ (target off = .status ∧ off = 0x004) ∨
      (target off = .cmd ∧ off = 0x008) ∨ (target off = .rand ∧ off = 0x00C) ∨
      (∃ i, target off = .reg i ∧ off = regOffset i) ∨ target off = .reserved := by
  obtain ⟨n, rfl⟩ : ∃ n, off = 4 * n := ⟨off / 4, by omega⟩
  have hn : n < 64 := by omega
  clear h4 h
  revert n; decide

end Window

section Accesses

/-- A host read changes the answer on the bus and the count of free values, nothing else
(10_state.md R41). -/
theorem hostRead_eq (s : State) (g : Target) :
    ∃ v n, s.hostRead g = { s with resp := .read v, freeCtr := n } := by
  cases g with
  | reg i => simp only [State.hostRead]; split <;> exact ⟨_, _, rfl⟩
  | _ => exact ⟨_, _, rfl⟩

/-- A CTRL write, by bit 31 (10_state.md R26). -/
theorem writeCtrl_cases (s : State) (v : Word) :
    (v.getLsbD 31 = true ∧ s.writeCtrl v = s.softReset.setEnables v) ∨
      (v.getLsbD 31 = false ∧ s.writeCtrl v = s.setEnables v) := by
  simp only [State.writeCtrl]
  cases h : v.getLsbD 31
  · exact .inr ⟨rfl, by simp⟩
  · exact .inl ⟨rfl, by simp⟩

/-- Acceptance changes the word, the report, the phase and the hidden state, nothing else
(10_state.md R35). -/
theorem accept_eq (s : State) (w : Word) :
    ∃ k : Work, k.mr.draw = none ∧
      s.accept w = { s with
        cmdLatch := w, done := false, err := false, ecode := .none, phase := .exec, work := k } := by
  simp only [State.accept]
  cases decode w <;> exact ⟨_, rfl, rfl⟩

/-- Everything a host write can do, by where it goes and the phase (10_state.md R26 to R31, R35, R39,
R40, 43_miller_rabin.md R151, R152). -/
theorem hostWrite_cases (s : State) (v : Word) {off : Nat} (h4 : off % 4 = 0) (h : off < 256) :
    (off = 0x000 ∧ s.hostWrite v (target off) = { s.writeCtrl v with resp := .written }) ∨
    (off = 0x004 ∧ s.hostWrite v (target off) = { s.ackStatus v with resp := .written }) ∨
    (off = 0x008 ∧ s.phase = .idle ∧
      s.hostWrite v (target off) = { s.accept v with resp := .written }) ∨
    (off = 0x00C ∧ s.phase = .waitRand ∧
      s.hostWrite v (target off) = { s.giveDraw v with resp := .written }) ∨
    (∃ i, off = regOffset i ∧ s.phase = .idle ∧
      s.hostWrite v (target off) = { s.setReg i v with resp := .written }) ∨
    (target off = .reserved ∧ s.hostWrite v (target off) = { s with resp := .written }) ∨
    (((off = 0x008 ∧ s.phase ≠ .idle) ∨ (off = 0x00C ∧ s.phase ≠ .waitRand) ∨
        ∃ i, off = regOffset i ∧ s.phase ≠ .idle) ∧
      s.hostWrite v (target off) = { s.collide with resp := .written }) := by
  rcases target_cases h4 h with ⟨ht, ho⟩ | ⟨ht, ho⟩ | ⟨ht, ho⟩ | ⟨ht, ho⟩ | ⟨i, ht, ho⟩ | ht <;> rw [ht]
  · exact .inl ⟨ho, rfl⟩
  · exact .inr (.inl ⟨ho, rfl⟩)
  · by_cases hp : s.phase = .idle
    · exact .inr (.inr (.inl ⟨ho, hp, by simp only [State.hostWrite, State.writeCmd, hp]⟩))
    · iterate 6 right
      refine ⟨.inl ⟨ho, hp⟩, ?_⟩
      cases hq : s.phase <;> simp_all only [State.hostWrite, State.writeCmd, not_true_eq_false]
  · by_cases hp : s.phase = .waitRand
    · exact .inr (.inr (.inr (.inl ⟨ho, hp, by simp only [State.hostWrite, State.writeRand, hp]⟩)))
    · iterate 6 right
      refine ⟨.inr (.inl ⟨ho, hp⟩), ?_⟩
      cases hq : s.phase <;> simp_all only [State.hostWrite, State.writeRand, not_true_eq_false]
  · by_cases hp : s.phase = .idle
    · exact .inr (.inr (.inr (.inr (.inl
        ⟨i, ho, hp, by simp only [State.hostWrite, State.writeReg, hp]⟩))))
    · iterate 6 right
      refine ⟨.inr (.inr ⟨i, ho, hp⟩), ?_⟩
      cases hq : s.phase <;> simp_all only [State.hostWrite, State.writeReg, not_true_eq_false]
  · exact .inr (.inr (.inr (.inr (.inr (.inl ⟨rfl, rfl⟩)))))

end Accesses

section Exec

/-- What an `exec` that answers a next state can have done: complete with the units' hidden registers
changed, end in RANGE, or (MRT only) ask for a draw (10_state.md R37, 60_exceptions.md R214,
43_miller_rabin.md R151). -/
theorem exec_cases {i : Instr} {s t : State} (h : exec i s = .next t) :
    (∃ v w, w.opA = s.work.opA ∧ w.opB = s.work.opB ∧ w.opM = s.work.opM ∧
      t = State.complete { s with work := w } (rdOf i) v) ∨
    t = s.raise .range ∨
    (∃ w, w.opA = s.work.opA ∧ w.opB = s.work.opB ∧ w.opM = s.work.opM ∧
      (∃ rd a b, i = .mrt rd a b) ∧ t = State.requestDraw { s with work := w }) := by
  have key : ∀ {u : State}, (Host.Outcome.next u : Host.Outcome State Fault Refusal) = .next t → u = t :=
    fun h => by cases h; rfl
  cases i with
  | madd rd a b m =>
    simp only [exec, execMadd] at h
    split at h
    · exact .inl ⟨_, s.work, rfl, rfl, rfl, (key h).symm⟩
    · exact .inr (.inl (key h).symm)
  | msub rd a b m =>
    simp only [exec, execMsub] at h
    split at h
    · exact .inl ⟨_, s.work, rfl, rfl, rfl, (key h).symm⟩
    · exact .inr (.inl (key h).symm)
  | mmul rd a b m =>
    simp only [exec, execMmul] at h
    split at h
    · exact .inr (.inl (key h).symm)
    · exact .inl ⟨_, (s.setMul (mulRun s.work.opA s.work.opB s.work.opM)).work, rfl, rfl, rfl, (key h).symm⟩
  | mpow rd a b m =>
    simp only [exec, execMpow] at h
    split at h
    · exact .inr (.inl (key h).symm)
    · split at h
      · exact .inr (.inl (key h).symm)
      · exact .inl ⟨_, (s.setPow (powRun s.work.opA s.work.opB s.work.opM s.work.mul)).work, rfl, rfl, rfl,
          (key h).symm⟩
  | mrt rd a b =>
    simp only [exec, execMrt] at h
    split at h
    · rw [← key h, mrtStart]
      split
      · exact .inl ⟨_, s.work, rfl, rfl, rfl, rfl⟩
      · split
        · exact .inl ⟨_, s.work, rfl, rfl, rfl, rfl⟩
        · split
          · exact .inl ⟨_, (s.splitCandidate 0).work, rfl, rfl, rfl, rfl⟩
          · exact .inr (.inr ⟨(s.splitCandidate s.work.opB).work, rfl, rfl, rfl, ⟨rd, a, b, rfl⟩, rfl⟩)
    · rename_i r _
      rw [← key h, mrtRound]
      split
      · split
        · exact .inl ⟨_, (s.afterRound r).work, rfl, rfl, rfl, rfl⟩
        · exact .inr (.inr ⟨(s.afterRound r).work, rfl, rfl, rfl, ⟨rd, a, b, rfl⟩, rfl⟩)
      · exact .inl ⟨_, (s.afterRound r).work, rfl, rfl, rfl, rfl⟩
  | minv rd a m =>
    simp only [exec, execMinv] at h
    split at h
    · exact .inr (.inl (key h).symm)
    · exact .inl ⟨_, { s.work with inv := invRun s.work.opA s.work.opM }, rfl, rfl, rfl, (key h).symm⟩
  | gcd rd a b =>
    simp only [exec, execGcd] at h
    exact .inl ⟨_, { s.work with gcd := gcdRun s.work.opA s.work.opB }, rfl, rfl, rfl, (key h).symm⟩

/-- Every command answers a next state in every state: no command stops (10_state.md R38, R42). -/
theorem exec_answers_next (i : Instr) (s : State) : ∃ t, exec i s = .next t := by
  cases i <;>
    simp only [exec, execMadd, execMsub, execMmul, execMpow, execMrt, execMinv, execGcd] <;>
    (repeat' split) <;> exact ⟨_, rfl⟩

end Exec

section Turns
variable {s : State} {ts : List Turn}

/-- A legal host write (20_memory.md R66). -/
theorem step_write {off : Nat} {v : Word} (hr : s.rst = false) (h : off < 256) (h4 : off % 4 = 0)
    (ht : s.turns = .host (writeAt off v) :: ts) :
    step s = .next (State.hostWrite { s with turns := ts } v (target off)) := by
  simp [step, takeTurn, ht, hostAccess, writeAt, windowOffset_coreBase h, hr, h4]

/-- A legal host read (20_memory.md R66). -/
theorem step_read {off : Nat} (hr : s.rst = false) (h : off < 256) (h4 : off % 4 = 0)
    (ht : s.turns = .host (readAt off) :: ts) :
    step s = .next (State.hostRead { s with turns := ts } (target off)) := by
  simp [step, takeTurn, ht, hostAccess, readAt, windowOffset_coreBase h, hr, h4]

/-- A CMD write while IDLE is the acceptance (10_state.md R35). -/
theorem step_command_write {w : Word} (hr : s.rst = false) (hp : s.phase = .idle)
    (ht : s.turns = .host (writeAt 0x008 w) :: ts) :
    step s = .next { State.accept { s with turns := ts } w with resp := .written } := by
  rw [step_write hr (by decide) (by decide) ht]
  have h8 : target 0x008 = .cmd := rfl
  simp only [h8, State.hostWrite, State.writeCmd, hp]

/-- The rst port's turn. -/
theorem step_rst {level : Bool} (ht : s.turns = .rst level :: ts) :
    step s = .next (State.rstEdge { s with turns := ts } level) := by
  simp [step, takeTurn, ht]

/-- The CORE's turn, listed or not. -/
theorem step_core (ht : s.turns = [] ∨ s.turns.head? = some .core) :
    step s = coreStep { s with turns := s.turns.tail } := by
  rcases ht with ht | ht
  · have hs : ({ s with turns := s.turns.tail } : State) = s := by
      rw [ht, List.tail_nil, ← ht]
    rw [hs]; simp [step, takeTurn, ht]
  · obtain ⟨us, hus⟩ : ∃ us, s.turns = .core :: us := by
      cases hu : s.turns with
      | nil => simp [hu] at ht
      | cons u us => simp [hu] at ht; exact ⟨us, by rw [ht]⟩
    simp [step, takeTurn, hus]

/-- A CORE step in EXEC out of reset runs the decoded command. -/
theorem coreStep_command {i : Instr} (hr : s.rst = false) (hp : s.phase = .exec)
    (hd : decode s.cmdLatch = .command i) : coreStep s = exec i s := by
  simp [coreStep, hr, hp, hd]

/-- A CORE step on an illegal word. -/
theorem coreStep_illegal {why : IllegalReason} (hr : s.rst = false) (hp : s.phase = .exec)
    (hd : decode s.cmdLatch = .illegal why) : coreStep s = .next (s.raise .illegal) := by
  simp [coreStep, hr, hp, hd]

/-- A CORE step outside EXEC, or under reset, changes nothing. -/
theorem coreStep_still (h : s.rst = true ∨ s.phase ≠ .exec) : coreStep s = .next s := by
  simp only [coreStep]
  split
  · rfl
  · rename_i hr
    cases hp : s.phase with
    | idle => rfl
    | waitRand => rfl
    | exec => exact absurd (h.resolve_left hr) (by simp [hp])

/-- Everything a CORE step that answers a next state can have done. -/
theorem coreStep_cases {t : State} (h : coreStep s = .next t) :
    ((s.rst = true ∨ s.phase ≠ .exec) ∧ t = s) ∨
    (s.rst = false ∧ s.phase = .exec ∧ ∃ i, decode s.cmdLatch = .command i ∧ exec i s = .next t) ∨
    (s.rst = false ∧ s.phase = .exec ∧ (∃ why, decode s.cmdLatch = .illegal why) ∧
      t = s.raise .illegal) := by
  by_cases hs : s.rst = true ∨ s.phase ≠ .exec
  · rw [coreStep_still hs] at h; cases h; exact .inl ⟨hs, rfl⟩
  · push Not at hs
    have hr : s.rst = false := by simpa using hs.1
    cases hd : decode s.cmdLatch with
    | command i => rw [coreStep_command hr hs.2 hd] at h; exact .inr (.inl ⟨hr, hs.2, i, rfl, h⟩)
    | illegal why =>
      rw [coreStep_illegal hr hs.2 hd] at h; cases h
      exact .inr (.inr ⟨hr, hs.2, ⟨why, rfl⟩, rfl⟩)

/-- Everything a step that answers a next state can have done: a CORE step, a legal read, a legal write,
or an edge of rst (10_state.md R42). -/
theorem step_cases {t : State} (h : step s = .next t) :
    ((s.turns = [] ∨ s.turns.head? = some .core) ∧ coreStep { s with turns := s.turns.tail } = .next t) ∨
    (∃ off us, s.turns = .host (readAt off) :: us ∧ s.rst = false ∧ off < 256 ∧ off % 4 = 0 ∧
      t = State.hostRead { s with turns := us } (target off)) ∨
    (∃ off v us, s.turns = .host (writeAt off v) :: us ∧ s.rst = false ∧ off < 256 ∧ off % 4 = 0 ∧
      t = State.hostWrite { s with turns := us } v (target off)) ∨
    (∃ level us, s.turns = .rst level :: us ∧ t = State.rstEdge { s with turns := us } level) := by
  cases hu : s.turns with
  | nil =>
    refine .inl ⟨.inl rfl, ?_⟩
    rw [step_core (.inl hu), hu] at h; exact h
  | cons u us =>
    cases u with
    | core =>
      refine .inl ⟨.inr rfl, ?_⟩
      rw [step_core (.inr (by simp [hu])), hu] at h; exact h
    | rst level =>
      rw [step_rst hu] at h; cases h
      exact .inr (.inr (.inr ⟨level, us, rfl, rfl⟩))
    | host a =>
      simp only [step, takeTurn, hu, hostAccess] at h
      split at h
      · cases h
      · rename_i off hoff
        obtain ⟨haddr, hlt⟩ := eq_of_windowOffset hoff
        split at h
        · cases h
        · rename_i hr
          have hr' : s.rst = false := by simpa using hr
          split at h
          · cases h
          · rename_i hsz
            push Not at hsz
            obtain ⟨addr, size, op⟩ := a
            simp only at haddr hsz h
            obtain ⟨hsz1, hsz2⟩ := hsz
            subst haddr hsz1
            cases op with
            | read => cases h; exact .inr (.inl ⟨off, us, rfl, hr', hlt, hsz2, rfl⟩)
            | write v => cases h; exact .inr (.inr (.inl ⟨off, v, us, rfl, hr', hlt, hsz2, rfl⟩))

end Turns

section Runs

/-- A run whose first step answers a next state goes on from it. -/
theorem run_succ_of_step {s t : State} (h : step s = .next t) (n : Nat) :
    Host.Core.run Sys2Proof.core (n + 1) s = Host.Core.run Sys2Proof.core n t := by
  have h' : Sys2Proof.core.step s = .next t := h
  simp only [Host.Core.run, h']

/-- A run that reaches a state goes on from it. -/
theorem run_add_of_run {t : State} : ∀ (m n : Nat) (s : State),
    Host.Core.run Sys2Proof.core m s = .next t →
    Host.Core.run Sys2Proof.core (m + n) s = Host.Core.run Sys2Proof.core n t
  | 0, n, s, h => by
    cases h; rw [Nat.zero_add]
  | m + 1, n, s, h => by
    rw [Nat.succ_add]
    cases hs : step s with
    | next u =>
      rw [run_succ_of_step hs] at h ⊢
      exact run_add_of_run m n u h
    | fault r =>
      have h' : Sys2Proof.core.step s = .fault r := hs
      simp only [Host.Core.run, h'] at h; cases h
    | refused r =>
      have h' : Sys2Proof.core.step s = .refused r := hs
      simp only [Host.Core.run, h'] at h; cases h

end Runs

end Sys2Proof.Machine
end

