-- ==== Sys2Proof/Tests/Slice0.lean ====
section
/-! SUPPORT. Tests, each with the vector or rule of spec/ its expected value comes from, and for every
statement of Obligations.lean that has hypotheses a witness that meets them. -/

namespace Sys2Proof.Machine.Tests

/-! ## Well-formedness (30_encoding.md R99) -/

theorem test_wf_accepts : SourceCommand.wf ⟨.madd, [3, 1, 2, 15]⟩ = true := by decide
theorem test_wf_refuses_operand_count :
    SourceCommand.arityOk ⟨.mrt, [2, 0, 1, 0]⟩ = false ∧ assemble ⟨.mrt, [2, 0, 1, 0]⟩ = none := by decide
theorem test_wf_refuses_register_16 :
    SourceCommand.registersOk ⟨.gcd, [2, 16, 1]⟩ = false ∧ assemble ⟨.gcd, [2, 16, 1]⟩ = none := by decide

/-! ## Command words (30_encoding.md R102; V55 for the illegal ones) -/

theorem test_decode_madd : decode 0x00421301 = .command (.madd 3 1 2 4) := by decide
theorem test_decode_msub : decode 0x00421302 = .command (.msub 3 1 2 4) := by decide
theorem test_decode_mmul : decode 0x00130503 = .command (.mmul 5 0 3 1) := by decide
theorem test_decode_mpow : decode 0x00310404 = .command (.mpow 4 0 1 3) := by decide
theorem test_decode_mrt : decode 0x00010205 = .command (.mrt 2 0 1) := by decide
theorem test_decode_minv : decode 0x00100306 = .command (.minv 3 0 1) := by decide
theorem test_decode_gcd : decode 0x00010207 = .command (.gcd 2 0 1) := by decide
/-- R90 bit by bit: RSV 00000000, RM 1111, RS2 1110, RS1 1101, RD 1100, OPC 00000001. -/
theorem test_decode_fields :
    decode 0b00000000111111101101110000000001 = .command (.madd 12 13 14 15) := by decide
theorem test_decode_illegal :
    decode 0x00000000 = .illegal .opcode ∧ decode 0x00000008 = .illegal .opcode ∧
    decode 0x000000FF = .illegal .opcode ∧ decode 0xFFFFFF01 = .illegal .reservedBits ∧
    decode 0x80000005 = .illegal .reservedBits ∧ decode 0x00110205 = .illegal .unusedRm ∧
    decode 0x00F00007 = .illegal .unusedRm ∧ decode 0x000F0006 = .illegal .unusedRs2 := by decide
theorem test_decode_all_fields :
    decode 0x00FFFF04 = .command (.mpow 15 15 15 15) ∧ decode 0x00F0F006 = .command (.minv 0 15 15) ∧
    decode 0x00000001 = .command (.madd 0 0 0 0) := by decide
theorem test_decode_table_word :
    decodeTableWord 32 0x00421301 = some (.madd 3 1 2 4) ∧ decodeTableWord 32 0x00000000 = none := by decide
/-- V16: the pseudo-instruction's word; R99: mnemonics in any case, a comment after `;`. -/
theorem test_assemble :
    assembleLine "mclr R2, R2, R4 ; x[2] is 0".toList = some 0x00422202 ∧
    assembleLine "MADD R3, R1, R2, x4".toList = none := by decide

/-! ## One step of each command -/

/-- The reset state with these registers written. -/
def withRegs (regs : List (RegNum × Word)) : State :=
  regs.foldl (fun s r => s.setReg r.1 r.2) State.reset

/-- The step that runs a command word on these registers. -/
def run (w : Word) (regs : List (RegNum × Word)) : Host.Outcome State Fault Refusal :=
  step ((withRegs regs).withFetchWord 32 w.toNat)

/-- What a test looks at: a register, STATUS and CMD after the step. -/
def shows (o : Host.Outcome State Fault Refusal) (r : RegNum) (v status cmd : Word) : Bool :=
  match o with
  | .next t => t.reg r == v && t.statusWord == status && t.cmdLatch == cmd
  | .fault _ => false
  | .refused _ => false

/-- V13, the wrap branch. -/
theorem test_madd_wrap :
    shows (run 0x00421301 [(1, 0xFFFFFFFA), (2, 0xFFFFFFF0), (4, 0xFFFFFFFB)])
      3 0xFFFFFFEF 0x00000002 0x00421301 = true := by decide +kernel
/-- V15. -/
theorem test_madd_range :
    shows (run 0x00421301 [(1, 7), (2, 1), (4, 7), (3, 9)]) 3 9 0x00000206 0x00421301 = true := by
  decide +kernel
/-- V14, a < b. -/
theorem test_msub_borrow :
    shows (run 0x00421302 [(1, 0x12345678), (2, 0x9ABCDEF0), (4, 0xFFFFFFF1)])
      3 0x77777779 0x00000002 0x00421302 = true := by decide +kernel
/-- V15. -/
theorem test_msub_range :
    shows (run 0x00421302 [(1, 0xFFFFFFFF), (2, 0), (4, 0xFFFFFFFF), (3, 9)])
      3 9 0x00000206 0x00421302 = true := by decide +kernel
/-- V20, the wrap inside ModAdd with y >= mod. -/
theorem test_mmul_wrap :
    shows (run 0x00130503 [(0, 0xFFFFFFFA), (3, 0xFFFFFFFF), (1, 0xFFFFFFFB)])
      5 0xFFFFFFF7 0x00000002 0x00130503 = true := by decide +kernel
/-- V22: x >= mod, even with y = 0. -/
theorem test_mmul_range :
    shows (run 0x00130503 [(0, 0xFFFFFFFF), (3, 0), (1, 0xFFFFFFFF)]) 5 0 0x00000206 0x00130503 = true := by
  decide +kernel
/-- V25, V1. -/
theorem test_mpow :
    shows (run 0x00310404 [(0, 65), (1, 17), (3, 3233)]) 4 2790 0x00000002 0x00310404 = true := by
  decide +kernel
/-- V25 (base >= mod with exp = 0 is legal) and V26 (mod < 2 is checked before exp = 0). -/
theorem test_mpow_zero_exponent :
    shows (run 0x00310404 [(0, 9), (1, 0), (3, 7)]) 4 1 0x00000002 0x00310404 = true ∧
    shows (run 0x00310404 [(0, 5), (1, 0), (3, 1)]) 4 0 0x00000206 0x00310404 = true := by decide +kernel
/-- V32: c = 2 is prime without a draw. -/
theorem test_mrt_two : shows (run 0x00010205 [(0, 2), (1, 5)]) 2 1 0x00000002 0x00010205 = true := by
  decide +kernel
/-- V30: for c = 97 the first step asks for a draw (STATUS 0x00000009). -/
theorem test_mrt_request :
    shows (run 0x00010205 [(0, 97), (1, 2), (2, 9)]) 2 9 0x00000009 0x00010205 = true := by decide +kernel
/-- V40. -/
theorem test_minv : shows (run 0x00100306 [(0, 17), (1, 3120)]) 3 2753 0x00000002 0x00100306 = true := by
  decide +kernel
/-- V9: the sentinel 0, a completion without error. -/
theorem test_minv_none :
    shows (run 0x00100306 [(0, 6), (1, 9), (3, 5)]) 3 0 0x00000002 0x00100306 = true := by decide +kernel
/-- V50. -/
theorem test_gcd : shows (run 0x00010207 [(0, 17), (1, 3120)]) 2 1 0x00000002 0x00010207 = true := by
  decide +kernel
/-- 44_extended_gcd.md R181: gcd(0, 0) = 0. -/
theorem test_gcd_zero :
    shows (run 0x00010207 [(0, 0), (1, 0), (2, 5)]) 2 0 0x00000002 0x00010207 = true := by decide +kernel
/-- 60_exceptions.md R214: an illegal word ends with STATUS 0x00000106, and CMD keeps the word. -/
theorem test_illegal : shows (run 0x01421301 []) 3 0 0x00000106 0x01421301 = true := by decide +kernel
/-- V16: rd = rm, the modulus was latched at acceptance. -/
theorem test_destination_is_modulus :
    shows (run 0x00421401 [(1, 5), (2, 6), (4, 7)]) 4 4 0x00000002 0x00421401 = true := by decide +kernel

/-- An MRT of c = 97 that waits for its first draw (V30: d = 3, s = 5), of so many rounds. -/
def waiting97 (rounds : Word) : State :=
  { withRegs [(0, 97), (1, rounds)] with
    cmdLatch := 0x00010205, phase := .waitRand
    work := { Work.reset with
      opA := 97, opB := rounds, mr := { Work.reset.mr with d := 3, twos := 5, left := rounds } } }

/-- An MRT of c = 9 with a draw in hand (V33: d = 1, s = 3). -/
def drawn9 (r : Word) : State :=
  { withRegs [(0, 9), (1, 20)] with
    cmdLatch := 0x00010205, phase := .exec
    work := { Work.reset with
      opA := 9, opB := 20, mr := { Work.reset.mr with d := 1, twos := 3, left := 20, draw := some r } } }

/-- V30: the draw 0x02B1DA47 is base 2, which passes; round 2 asks again. -/
theorem test_mrt_round_passes :
    shows (step ((waiting97 2).giveDraw 0x02B1DA47)) 2 0 0x00000009 0x00010205 = true := by decide +kernel
/-- V33: base 2 rejects c = 9 at its first draw. -/
theorem test_mrt_round_rejects :
    shows (step (drawn9 0x24924925)) 2 0 0x00000002 0x00010205 = true := by decide +kernel

/-! ## STATUS, CTRL, the interrupt, the handshake -/

/-- V61: STATUS = 0x00000216 before the write. -/
theorem test_status_write :
    let s : State := { State.reset with done := true, err := true, coll := true, ecode := .range }
    s.statusWord = 0x00000216 ∧ (s.ackStatus 0x00000002).statusWord = 0x00000214 ∧
    (s.ackStatus 0x00000010).statusWord = 0x00000206 ∧ (s.ackStatus 0xFFFFFFFF).statusWord = 0x00000204 ∧
    (s.ackStatus 0).statusWord = 0x00000216 := by decide

/-- V60: a CTRL write of all ones is a soft reset that keeps both enables. -/
theorem test_ctrl_write :
    (State.reset.writeCtrl 0x00000003).ctrlWord = 0x00000003 ∧
    (State.reset.writeCtrl 0xFFFFFFFF).ctrlWord = 0x00000003 := by decide

/-- V63: a soft reset out of WAIT_RAND; x[0] and x[1] stay. -/
theorem test_soft_reset :
    let t := (waiting97 2).writeCtrl 0x80000001
    t.phase = .idle ∧ t.statusWord = 0 ∧ t.cmdLatch = 0 ∧ t.ctrlWord = 0x00000001 ∧ t.reg 0 = 97 ∧
    t.reg 1 = 2 := by decide

/-- V64: a CMD write while waiting is dropped, STATUS = 0x00000019. -/
theorem test_collision :
    ((waiting97 2).hostWrite 0x00421301 .cmd).statusWord = 0x00000019 ∧
    ((waiting97 2).hostWrite 0x00421301 .cmd).cmdLatch = 0x00010205 ∧
    ((waiting97 2).hostWrite 5 (.reg 0)).reg 0 = 97 := by decide

/-! ## Witnesses: states and operands that meet each statement's hypotheses -/

/-- A state whose next turn is this host access. -/
def before (s : State) (a : Access) : State := { s with turns := [.host a] }

/-- A MADD in execution, 5 + 6 modulo 7. -/
def running : State := ((withRegs [(1, 5), (2, 6), (4, 7)]).accept 0x00421301)

theorem witness_EncodeOfDecode : decode 0x00F11101 = .command (.madd 1 1 1 15) := by decide

theorem witness_DecodeAgreesWithMatchAndMask :
    decode 0x00FFFF04 = .command (.mpow 15 15 15 15) ∧
    ∀ row ∈ opcodeRows, row.covers row.pattern = true := by decide

theorem witness_BlockPacking : ([] : List Byte).length < 4 ∧ [0x41, 0x42, (0x43 : Byte)].length < 4 := by
  decide

theorem witness_AddressMap :
    (∀ off ∈ [0x010, 0x03C], 0x010 ≤ off ∧ off ≤ 0x03C ∧ off % 4 = 0) ∧
    (∀ off ∈ [0x080, 0x0FC], 0x080 ≤ off ∧ off ≤ 0x0FC ∧ off % 4 = 0) ∧
    ∀ off ∈ [0x000, 0x03C, 0x080, 0x0FC], off ≤ 0x0FC ∧ off % 4 = 0 ∧ (off < 0x040 ∨ 0x080 ≤ off) := by decide

theorem witness_RegisterAccess :
    State.rst running = false ∧ running.phase ≠ .idle ∧ State.reset.rst = false ∧ State.reset.phase = .idle ∧
    (∀ s i v, (before s (writeAt (regOffset i) v)).turns = [.host (writeAt (regOffset i) v)]) ∧
    ∀ s i, (before s (readAt (regOffset i))).turns = [.host (readAt (regOffset i))] :=
  ⟨rfl, by decide, rfl, rfl, fun _ _ _ => rfl, fun _ _ => rfl⟩

theorem witness_CommandWriteIsAccepted :
    (before State.reset (writeAt 0x008 0x00421301)).rst = false ∧
    (before State.reset (writeAt 0x008 0x00421301)).phase = .idle ∧
    decode 0x00421301 = .command (.madd 3 1 2 4) ∧ decode 0x00010205 = .command (.mrt 2 0 1) ∧
    decode 0x00100306 = .command (.minv 3 0 1) ∧ decode 0 = .illegal .opcode := by decide

theorem witness_CommandWriteWhileBusyIsDropped :
    (before running (writeAt 0x008 0x00010207)).rst = false ∧
    (before running (writeAt 0x008 0x00010207)).phase ≠ .idle ∧ (waiting97 1).phase ≠ .idle := by decide

theorem witness_ControlRegister :
    running.rst = false ∧ (0x00000003 : Word).getLsbD 31 = false ∧
    (0x80000001 : Word).getLsbD 31 = true := by decide

theorem witness_SoftReset :
    (before (waiting97 1) (writeAt 0x000 0x80000000)).rst = false ∧
    (0x80000000 : Word).getLsbD 31 = true := by decide

theorem witness_StatusReadsItsFields :
    (before (waiting97 1) (readAt 0x004)).rst = false ∧
    (before (waiting97 1) (readAt 0x004)).turns = [.host (readAt 0x004)] := ⟨rfl, rfl⟩

theorem witness_StatusWriteOneToClear :
    (before State.reset (writeAt 0x004 0x12)).rst = false ∧
    (before State.reset (writeAt 0x004 0x12)).turns = [.host (writeAt 0x004 0x12)] := ⟨rfl, rfl⟩

theorem witness_RandRegister :
    (waiting97 1).rst = false ∧ (waiting97 1).phase = .waitRand ∧ running.rst = false ∧
    running.phase ≠ .waitRand ∧ State.reset.phase ≠ .waitRand := by decide

theorem witness_ReservedFieldsAndOffsets :
    State.reset.rst = false ∧
    (∀ off ∈ [0x010, 0x03C, 0x080, 0x0FC],
      off % 4 = 0 ∧ ((0x010 ≤ off ∧ off ≤ 0x03C) ∨ (0x080 ≤ off ∧ off ≤ 0x0FC))) ∧
    ((0x7FFFFFFC : Word).getLsbD 0 = (0 : Word).getLsbD 0 ∧
      (0x7FFFFFFC : Word).getLsbD 1 = (0 : Word).getLsbD 1 ∧
      (0x7FFFFFFC : Word).getLsbD 31 = (0 : Word).getLsbD 31) ∧
    ∀ n, n < 12 → ¬ (5 ≤ n ∧ n ≤ 7) → (0xFFFFF0E0 : Word).getLsbD n = (0 : Word).getLsbD n := by decide +kernel

theorem witness_ReadsHaveNoSideEffect :
    running.rst = false ∧ ∀ off ∈ [0x000, 0x0FC], off < 256 ∧ off % 4 = 0 := by
  decide +kernel

theorem witness_OnlyAlignedWordAccessesAreServed :
    (∀ off, off < 256 → Config.coreBase ≤ Config.coreBase + off ∧
      Config.coreBase + off < Config.coreBase + 256) ∧
    (Config.coreBase + 0x0FC) % 4 = 0 ∧ (Config.coreBase + 0x0FF) % 4 ≠ 0 := by
  have h256 := coreBase_mod
  generalize Config.coreBase = base at h256 ⊢
  exact ⟨fun off h => by omega, by omega, by omega⟩

theorem witness_AccessesThatAreNotServed :
    (Config.coreBase + 256 ≤ Config.coreBase + 256) ∧
    ({ State.reset with rst := true } : State).rst = true := ⟨Nat.le_refl _, rfl⟩

/-- R39: a CMD write while a command runs is dropped. -/
theorem witness_CollisionIsNotAnError :
    ∃ t, step (before running (writeAt 0x008 0)) = .next t ∧ running.coll = false ∧ t.coll = true :=
  ⟨_, step_write (ts := []) rfl (by decide) (by decide) rfl, by decide, by decide⟩

/-- The state after a RANGE error. -/
def failed : State := { State.reset with done := true, err := true, ecode := .range, cmdLatch := 0x00421301 }

theorem failed_inv : failed.Inv where
  busyNotDone := by decide
  busyNoError := by decide
  rneedBusy := by decide
  errEcode := by decide
  resetIdle := by decide
  noDrawWaiting := by decide
  test := by
    rintro (h | h)
    · exact absurd h (by decide)
    · exact absurd h.1 (by decide)

/-- The report stays over a write of 1 to DONE, and leaves with the next command. -/
theorem witness_ErrorReportStays :
    failed.Inv ∧ failed.err = true ∧ (∃ t, step failed = .next t) ∧
    ∃ t, step (before failed (writeAt 0x008 0)) = .next t ∧ t.err = false :=
  ⟨failed_inv, rfl, ⟨_, rfl⟩, _, step_write (ts := []) rfl (by decide) (by decide) rfl, by decide⟩

theorem witness_HardwareReset :
    ({ running with turns := [.rst true] } : State).turns = [.rst true] := rfl

theorem witness_StepRunsDecodedCommand :
    running.rst = false ∧ running.phase = .exec ∧ decode running.cmdLatch = .command (.madd 3 1 2 4) ∧
    running.turns = [] ∧ ({ running with turns := [.core] } : State).turns.head? = some .core := by decide

theorem witness_IllegalCommandEndsInError :
    ((State.reset.accept 0).rst = false ∧ (State.reset.accept 0).phase = .exec ∧
      decode (State.reset.accept 0).cmdLatch = .illegal .opcode ∧ (State.reset.accept 0).turns = []) ∧
    ((before running (readAt 0x008)).rst = false ∧
      (before running (readAt 0x008)).turns = [.host (readAt 0x008)]) ∧
    State.reset.rst = false ∧ State.reset.phase = .idle ∧ decode 0xFFFFFFFF = .illegal .reservedBits ∧
    ({ State.reset with turns := [.host (writeAt 0x008 0xFFFFFFFF), .core, .host (readAt 0x008)] } : State).turns =
      [.host (writeAt 0x008 0xFFFFFFFF), .core, .host (readAt 0x008)] :=
  ⟨by decide, ⟨rfl, rfl⟩, rfl, rfl, by decide, rfl⟩

theorem witness_CommandsCompleteInOneStep :
    running.phase = .exec ∧ decode running.cmdLatch = .command (.madd 3 1 2 4) ∧
    ∀ rd rs1 rs2, Instr.madd 3 1 2 4 ≠ .mrt rd rs1 rs2 := ⟨rfl, by decide, fun _ _ _ => by simp⟩

theorem witness_WaitRandHangsWithoutDraw :
    (waiting97 1).phase = .waitRand ∧
    ∀ u ∈ ({ waiting97 1 with turns := [.core, .core] } : State).turns, u = .core := by decide

/-- A draw, a soft reset and a hardware reset each end the wait. -/
theorem witness_OnlyDrawOrResetEndsTheWait :
    (waiting97 1).phase = .waitRand ∧
    (∃ t, step (before (waiting97 1) (writeAt 0x00C 0)) = .next t ∧ t.phase ≠ .waitRand) ∧
    (∃ t, step (before (waiting97 1) (writeAt 0x000 0x80000000)) = .next t ∧ t.phase ≠ .waitRand) ∧
    ∃ t, step { waiting97 1 with turns := [.rst true] } = .next t ∧ t.phase ≠ .waitRand :=
  ⟨rfl, ⟨_, step_write (ts := []) rfl (by decide) (by decide) rfl, by decide⟩,
    ⟨_, step_write (ts := []) rfl (by decide) (by decide) rfl, by decide⟩, _, rfl, by decide⟩

/-- A CMD write, a soft reset and a hardware reset each change CMD's word. -/
theorem witness_OnlyCommandWriteStartsCommand :
    State.reset.phase = .idle ∧
    (∃ t, step (before State.reset (writeAt 0x008 0x00421301)) = .next t ∧ t.phase ≠ .idle ∧
      t.cmdLatch ≠ State.reset.cmdLatch) ∧
    (∃ t, step (before running (writeAt 0x000 0x80000000)) = .next t ∧ t.cmdLatch ≠ running.cmdLatch) ∧
    ∃ t, step { running with turns := [.rst true] } = .next t ∧ t.cmdLatch ≠ running.cmdLatch :=
  ⟨rfl, ⟨_, step_write (ts := []) rfl (by decide) (by decide) rfl, by decide, by decide⟩,
    ⟨_, step_write (ts := []) rfl (by decide) (by decide) rfl, by decide⟩, _, rfl, by decide⟩

theorem witness_AcceptedCommandIsFixed :
    running.phase ≠ .idle ∧
    ∃ t, step (before running (writeAt 0x044 0)) = .next t ∧ t.phase ≠ .idle :=
  ⟨by decide, _, step_write (ts := []) rfl (by decide) (by decide) rfl, by decide⟩

/-- A host write and a completion each change a register. -/
theorem witness_RegistersChangeOnlyByWriteCompletionOrReset :
    (∃ t, step (before State.reset (writeAt (regOffset 15) 1)) = .next t ∧ t.reg 15 ≠ State.reset.reg 15) ∧
    ∃ t, step running = .next t ∧ t.reg 3 ≠ running.reg 3 :=
  ⟨⟨_, step_write (ts := []) rfl (by decide) (by decide) rfl, by decide⟩, _, rfl, by decide⟩

/-- A completion, a RANGE error and a draw request. -/
theorem witness_CommandFrame :
    (∃ t, exec (.madd 3 1 2 4) running = .next t ∧ t.err = false) ∧
    (∃ t, exec (.madd 3 1 2 4) State.reset = .next t ∧ t.err = true) ∧
    ∃ t, exec (.mrt 2 0 1) { State.reset with work := { Work.reset with opA := 3, opB := 1 } } = .next t ∧
      t.phase ≠ .idle := ⟨⟨_, rfl, by decide⟩, ⟨_, rfl, by decide⟩, _, rfl, by decide⟩

/-- A state with these operands latched. -/
def latched (a b m : Word) : State := { State.reset with work := { Work.reset with opA := a, opB := b, opM := m } }

theorem witness_MaddResult_MsubResult :
    (latched 0xFFFFFFFE 0xFFFFFFFE 0xFFFFFFFF).work.opA.toNat <
      (latched 0xFFFFFFFE 0xFFFFFFFE 0xFFFFFFFF).work.opM.toNat ∧
    (latched 0 0 1).work.opB.toNat < (latched 0 0 1).work.opM.toNat := by decide

theorem witness_MmulResult_MpowResult_MinvResult :
    2 ≤ (latched 1 0xFFFFFFFF 2).work.opM.toNat ∧
    (latched 1 0xFFFFFFFF 2).work.opA.toNat < (latched 1 0xFFFFFFFF 2).work.opM.toNat ∧
    (2 ≤ (latched 9 0 7).work.opM.toNat ∧ (latched 9 0 7).work.opB.toNat = 0) ∧
    Nat.gcd (latched 17 0 3120).work.opA.toNat (latched 17 0 3120).work.opM.toNat = 1 ∧
    Nat.gcd (latched 6 0 9).work.opA.toNat (latched 6 0 9).work.opM.toNat ≠ 1 := by decide

/-- Where each command's RANGE condition begins, and just before it. -/
theorem witness_RangeErrorsExactly :
    (∃ t, exec (.madd 3 1 2 4) (latched 7 6 7) = .next t ∧ t.ecode = .range) ∧
    (∃ t, exec (.madd 3 1 2 4) (latched 6 6 7) = .next t ∧ t.ecode = .none) ∧
    (∃ t, exec (.msub 3 1 2 4) (latched 6 7 7) = .next t ∧ t.ecode = .range) ∧
    (∃ t, exec (.mmul 3 1 2 4) (latched 0 0 1) = .next t ∧ t.ecode = .range) ∧
    (∃ t, exec (.mpow 3 1 2 4) (latched 7 1 7) = .next t ∧ t.ecode = .range) ∧
    ∃ t, exec (.minv 3 1 4) (latched 0 0 1) = .next t ∧ t.ecode = .range :=
  ⟨⟨_, rfl, by decide⟩, ⟨_, rfl, by decide⟩, ⟨_, rfl, by decide⟩, ⟨_, rfl, by decide⟩, ⟨_, rfl, by decide⟩,
    _, rfl, by decide⟩

theorem witness_MrtSpecialCases :
    (latched 2 5 0).work.mr.draw = none ∧ (latched 2 5 0).work.opA.toNat = 2 ∧
    (latched 1 5 0).work.opA.toNat < 2 ∧ (latched 4 5 0).work.opA.toNat % 2 = 0 ∧
    ((latched 3 0 0).work.opA.toNat % 2 = 1 ∧ 3 ≤ (latched 3 0 0).work.opA.toNat ∧
      (latched 3 0 0).work.opB.toNat = 0) := by decide

theorem witness_MrtFirstRequest :
    (latched 3 1 0).work.mr.draw = none ∧ (latched 3 1 0).work.opA.toNat % 2 = 1 ∧
    3 ≤ (latched 3 1 0).work.opA.toNat ∧ (latched 3 1 0).work.opB.toNat ≠ 0 := by decide

/-- V30: base 2 (draw 0x02B1DA47) is a strong liar of 97. -/
theorem witness_MrtRound_passes :
    ((waiting97 2).giveDraw 0x02B1DA47).work.mr.draw = some 0x02B1DA47 ∧ 1 ≤ (waiting97 2).work.mr.twos ∧
    (waiting97 1).work.mr.left.toNat = 1 ∧ 2 ≤ (waiting97 2).work.mr.left.toNat ∧
    StrongLiar 97 3 5 (baseNat 97 0x02B1DA47) :=
  ⟨rfl, by decide, by decide, by decide, .inr ⟨3, by decide, by decide⟩⟩

/-- V33: base 2 (draw 0x24924925) is none of 9. -/
theorem witness_MrtRound_rejects :
    (drawn9 0x24924925).work.mr.draw = some 0x24924925 ∧ 3 ≤ (drawn9 0x24924925).work.opA.toNat ∧
    1 ≤ (drawn9 0x24924925).work.mr.twos ∧ 1 ≤ (drawn9 0x24924925).work.mr.left.toNat ∧
    ¬ StrongLiar 9 1 3 (baseNat 9 0x24924925) :=
  ⟨rfl, by decide, by decide, by decide, by unfold StrongLiar; decide⟩

/-- V37: the smallest draw of base 2 for c = 97. -/
theorem witness_BaseMapping :
    (3 : Word).toNat % 2 = 1 ∧ 3 ≤ (3 : Word).toNat ∧ 1 ≤ (95 : Word).toNat ∧
    (95 : Word).toNat ≤ (97 : Word).toNat - 2 ∧
    ((2 - 1) * 2 ^ 32 + (97 - 2 - 1)) / (97 - 2) = 0x02B1DA47 := by decide

theorem waiting97_mrOk (draw : Option Word) (rounds : Word) (h : 1 ≤ rounds.toNat) :
    State.MrOk { waiting97 rounds with
      work := { (waiting97 rounds).work with mr := { (waiting97 rounds).work.mr with draw := draw } } } where
  command := ⟨2, 0, 1, by show decode 0x00010205 = _; decide⟩
  odd := by show (97 : Word).toNat % 2 = 1; decide
  ge := by show 3 ≤ (97 : Word).toNat; decide
  split := by show (3 : Word).toNat * 2 ^ 5 = (97 : Word).toNat - 1; decide
  oddPart := by show (3 : Word).toNat % 2 = 1; decide
  twosPos := by show 1 ≤ 5; decide
  leftPos := h
  leftLe := Nat.le_refl _

theorem witness_PrimePassesEveryRound :
    ((waiting97 1).giveDraw 0xFFFFFFFF).MrOk ∧ ((waiting97 1).giveDraw 0xFFFFFFFF).work.mr.left.toNat = 1 ∧
    ((waiting97 2).giveDraw 0).MrOk ∧ 2 ≤ ((waiting97 2).giveDraw 0).work.mr.left.toNat ∧
    Nat.Prime (waiting97 1).work.opA.toNat := by
  have h1 := waiting97_mrOk (some 0xFFFFFFFF) 1 (by decide)
  have h2 := waiting97_mrOk (some 0) 2 (by decide)
  refine ⟨⟨h1.1, h1.2, h1.3, h1.4, h1.5, h1.6, h1.7, h1.8⟩, by decide,
    ⟨h2.1, h2.2, h2.3, h2.4, h2.5, h2.6, h2.7, h2.8⟩, by decide, ?_⟩
  show Nat.Prime 97
  norm_num

/-- V33: the draw 0x24924924 is still base 1 for c = 9. -/
theorem witness_SmallDrawsNeverReject :
    (drawn9 0x24924924).work.mr.draw = some 0x24924924 ∧ (drawn9 0x24924924).MrOk ∧
    (0x24924924 : Word).toNat * ((drawn9 0x24924924).work.opA.toNat - 2) < 2 ^ 32 ∧
    ∃ t, exec (.mrt 2 0 1) (drawn9 0x24924924) = .next t :=
  ⟨rfl, ⟨⟨2, 0, 1, by decide⟩, by decide, by decide, by decide, by decide, by decide, by decide, by decide⟩,
    by decide, _, rfl⟩

/-- An MRT just accepted, with a host that answers with these draws. -/
def tested (c k : Word) (draws : List Word) : State :=
  { (withRegs [(0, c), (1, k)]).accept 0x00010205 with turns := mrtTurns draws }

/-- V30. -/
theorem witness_MrtRunPasses :
    (tested 97 1 [0x02B1DA47]).phase = .exec ∧ (tested 97 1 [0x02B1DA47]).work.mr.draw = none ∧
    decode (tested 97 1 [0x02B1DA47]).cmdLatch = .command (.mrt 2 0 1) ∧
    (tested 97 1 [0x02B1DA47]).work.opA.toNat = 97 ∧ (tested 97 1 [0x02B1DA47]).work.opB.toNat = 1 ∧
    (3 % 2 = 1 ∧ 3 * 2 ^ 5 = 97 - 1) ∧ StrongLiar 97 3 5 (baseNat 97 (0x02B1DA47 : Word).toNat) :=
  ⟨rfl, rfl, by decide, by decide, by decide, by decide, .inr ⟨3, by decide, by decide⟩⟩

/-- V33: after one draw of base 1, base 2 rejects. -/
theorem witness_MrtRunRejects :
    (tested 9 20 [0, 0x24924925]).phase = .exec ∧ (tested 9 20 [0, 0x24924925]).work.mr.draw = none ∧
    decode (tested 9 20 [0, 0x24924925]).cmdLatch = .command (.mrt 2 0 1) ∧
    (tested 9 20 [0, 0x24924925]).work.opA.toNat = 9 ∧ 1 < (tested 9 20 [0, 0x24924925]).work.opB.toNat ∧
    (1 % 2 = 1 ∧ 1 * 2 ^ 3 = 9 - 1) ∧ StrongLiar 9 1 3 (baseNat 9 (0 : Word).toNat) ∧
    ¬ StrongLiar 9 1 3 (baseNat 9 (0x24924925 : Word).toNat) :=
  ⟨rfl, rfl, by decide, by decide, by decide, by decide, .inl (by decide), by unfold StrongLiar; decide⟩

/-- The registers of one state meet the conditions of all six commands; MPOW's with exp = 0 and
base >= mod too (V25), and MINV's without an inverse (V41). -/
theorem witness_CommandComputesFromItsRegisters :
    (withRegs [(1, 5), (2, 6), (4, 7)]).phase = .idle ∧ (withRegs [(1, 5), (2, 6), (4, 7)]).rst = false ∧
    ((withRegs [(1, 5), (2, 6), (4, 7)]).reg 1).toNat < ((withRegs [(1, 5), (2, 6), (4, 7)]).reg 4).toNat ∧
    ((withRegs [(1, 5), (2, 6), (4, 7)]).reg 2).toNat < ((withRegs [(1, 5), (2, 6), (4, 7)]).reg 4).toNat ∧
    2 ≤ ((withRegs [(1, 5), (2, 6), (4, 7)]).reg 4).toNat ∧
    Nat.gcd ((withRegs [(1, 5), (2, 6), (4, 7)]).reg 1).toNat
      ((withRegs [(1, 5), (2, 6), (4, 7)]).reg 4).toNat = 1 ∧
    (2 ≤ ((withRegs [(0, 9), (3, 7)]).reg 3).toNat ∧ ((withRegs [(0, 9), (3, 7)]).reg 1).toNat = 0 ∧
      ((withRegs [(0, 9), (3, 7)]).reg 3).toNat ≤ ((withRegs [(0, 9), (3, 7)]).reg 0).toNat) ∧
    (2 ≤ ((withRegs [(0, 4), (1, 2)]).reg 1).toNat ∧
      Nat.gcd ((withRegs [(0, 4), (1, 2)]).reg 0).toNat ((withRegs [(0, 4), (1, 2)]).reg 1).toNat ≠ 1) := by
  decide +kernel

theorem witness_ModularAdderLaws :
    (0xFFFFFFFA : Word).toNat < (0xFFFFFFFB : Word).toNat ∧ (3 : RegNum) ≠ 2 ∧ (3 : RegNum) ≠ 4 ∧
    ((withRegs [(1, 5), (2, 6), (4, 7)]).reg 1).toNat <
      ((withRegs [(1, 5), (2, 6), (4, 7)]).reg 4).toNat := by decide

theorem witness_ModularMultiplierLaws_ModularExponentiationLaws :
    2 ≤ (2 : Word).toNat ∧ (1 : Word).toNat < (2 : Word).toNat := by decide

theorem witness_ModularInverseLaws :
    2 ≤ (3120 : Word).toNat ∧ Nat.gcd (17 : Word).toNat (3120 : Word).toNat = 1 ∧ 1 < (17 : Word).toNat ∧
    (17 : Word).toNat < (3120 : Word).toNat ∧ Nat.gcd (6 : Word).toNat (9 : Word).toNat ≠ 1 ∧
    (1 ≤ 2753 ∧ 2753 ≤ (3120 : Word).toNat - 1 ∧ (17 : Word).toNat * 2753 % (3120 : Word).toNat = 1) := by
  decide

theorem witness_GcdAndInverseAgree : 2 ≤ (2 : Word).toNat := by decide

/-- A finished command whose completion drives irq, and a draw request that does. -/
theorem witness_InterruptLevelAndClearing :
    State.irq { failed with ieDone := true } = true ∧ State.irq { waiting97 1 with ieRand := true } = true ∧
    (∃ t, step (before { failed with ieDone := true } (writeAt 0x004 2)) = .next t ∧ t.irq = false) ∧
    (∃ t, step (before { failed with ieDone := true } (writeAt 0x008 0)) = .next t ∧ t.irq = false) ∧
    (∃ t, step (before { waiting97 1 with ieRand := true } (writeAt 0x00C 0)) = .next t ∧ t.irq = false) ∧
    (∃ t, step (before { failed with ieDone := true } (writeAt 0x000 2)) = .next t ∧ t.irq = false) ∧
    ∃ t, step { failed with ieDone := true, turns := [.rst true] } = .next t ∧ t.irq = false :=
  ⟨by decide, by decide, ⟨_, step_write (ts := []) rfl (by decide) (by decide) rfl, by decide⟩,
    ⟨_, step_write (ts := []) rfl (by decide) (by decide) rfl, by decide⟩,
    ⟨_, step_write (ts := []) rfl (by decide) (by decide) rfl, by decide⟩,
    ⟨_, step_write (ts := []) rfl (by decide) (by decide) rfl, by decide⟩, _, rfl, rfl⟩

theorem waiting97_inv : (waiting97 2).Inv where
  busyNotDone := by decide
  busyNoError := by decide
  rneedBusy := by decide
  errEcode := by decide
  resetIdle := by decide
  noDrawWaiting := by decide
  test := fun _ => waiting97_mrOk none 2 (by decide)

theorem witness_AtMostOneInterruptSource : failed.Inv ∧ (waiting97 2).Inv := ⟨failed_inv, waiting97_inv⟩

/-- A read of a written x[i], a command over written registers, a draw, a read of STATUS while BUSY. -/
theorem witness_ProtocolHostNeverCollides :
    let s := withRegs [(1, 5), (2, 6), (4, 7)]
    (keepsProtocol s (readAt (regOffset 1)) ∧ ¬ readsUnwritten s (readAt (regOffset 1))) ∧
    (keepsProtocol s (writeAt 0x008 0x00421301) ∧ ¬ readsUnwritten s (writeAt 0x008 0x00421301)) ∧
    (keepsProtocol (waiting97 1) (writeAt 0x00C 0) ∧ ¬ readsUnwritten (waiting97 1) (writeAt 0x00C 0)) ∧
    (keepsProtocol running (readAt 0x004) ∧ ¬ readsUnwritten running (readAt 0x004)) := by
  have off : ∀ {n m : Nat}, n < 256 → windowOffset (Config.coreBase + n) = some m → m = n := by
    intro n m hn h
    rw [windowOffset_coreBase hn] at h
    exact (Option.some.inj h).symm
  refine ⟨⟨⟨regOffset 1, windowOffset_coreBase (by decide), rfl, rfl, rfl⟩, ?_⟩,
    ⟨⟨0x008, windowOffset_coreBase (by decide), rfl, rfl, rfl⟩, ?_⟩,
    ⟨⟨0x00C, windowOffset_coreBase (by decide), rfl, rfl, rfl⟩, ?_⟩,
    ⟨⟨0x004, windowOffset_coreBase (by decide), rfl, rfl, trivial⟩, ?_⟩⟩
  · rintro ⟨m, hw, hm⟩
    obtain rfl := off (by decide) hw
    exact absurd hm.2 (by decide)
  · rintro ⟨m, hw, hm⟩
    obtain rfl := off (by decide) hw
    exact absurd hm.2 (by decide)
  · rintro ⟨m, hw, hm⟩
    obtain rfl := off (by decide) hw
    exact hm
  · rintro ⟨m, hw, hm⟩
    obtain rfl := off (by decide) hw
    exact hm

/-- The step of a waiting MRT whose host gives the draw. -/
theorem witness_StepKeepsInvariant :
    (waiting97 2).Inv ∧ ∃ t, step (waiting97 2) = .next t := ⟨waiting97_inv, _, rfl⟩

/-- Two MADDs in execution that differ in the multiplier's register; a fault and a refusal. -/
theorem witness_HiddenStateNeverShows :
    Indistinguishable running { running with work := { running.work with mul := ⟨1, 2, 3⟩ } } ∧
    running ≠ { running with work := { running.work with mul := ⟨1, 2, 3⟩ } } ∧ (∃ t, step running = .next t) ∧
    step (before running ⟨Config.coreBase, 2, .read⟩) = .fault .busError ∧
    step (before running ⟨Config.coreBase + 256, 4, .read⟩) = .refused .outsideWindow := by
  refine ⟨⟨rfl, fun _ => ⟨fun _ _ => rfl, fun _ _ _ => rfl, fun _ _ _ => rfl, rfl, fun _ => rfl,
    fun _ => rfl, fun _ => rfl⟩⟩, by decide, ⟨_, rfl⟩, ?_, ?_⟩
  · have h : windowOffset Config.coreBase = some 0 := windowOffset_coreBase (off := 0) (by decide)
    have hr : (before running ⟨Config.coreBase, 2, .read⟩).rst = false := rfl
    simp [step, takeTurn, before, hostAccess, h, running]
    decide
  · have h : windowOffset (Config.coreBase + 256) = none := by simp [windowOffset]
    simp [step, takeTurn, before, hostAccess, h]

end Sys2Proof.Machine.Tests
end

section
/-! PROOFS. The host's side of the state (10_state.md): what each access does, one lemma per register, and
O11, O16, O17, O18, O22. -/

namespace Sys2Proof.Machine

section Reads
variable {s : State} {ts : List Turn}

/-- A read of CTRL (10_state.md R26). -/
theorem step_ctrl_read (hr : s.rst = false) (ht : s.turns = .host (readAt 0x000) :: ts) :
    step s = .next { s with resp := .read s.ctrlWord, turns := ts } :=
  step_read hr (by decide) (by decide) ht

/-- A read of STATUS (10_state.md R27). -/
theorem step_status_read (hr : s.rst = false) (ht : s.turns = .host (readAt 0x004) :: ts) :
    step s = .next { s with resp := .read s.statusWord, turns := ts } :=
  step_read hr (by decide) (by decide) ht

/-- A read of RAND (10_state.md R30). -/
theorem step_rand_read (hr : s.rst = false) (ht : s.turns = .host (readAt 0x00C) :: ts) :
    step s = .next { s with resp := .read 0, turns := ts } :=
  step_read hr (by decide) (by decide) ht

end Reads

section Writes
variable {s : State} {ts : List Turn} {v : Word}

/-- A write to CTRL, in every phase (10_state.md R26). -/
theorem step_ctrl_write (hr : s.rst = false) (ht : s.turns = .host (writeAt 0x000 v) :: ts) :
    step s = .next { State.writeCtrl { s with turns := ts } v with resp := .written } :=
  step_write hr (by decide) (by decide) ht

/-- A write to STATUS, in every phase (10_state.md R27). -/
theorem step_status_write (hr : s.rst = false) (ht : s.turns = .host (writeAt 0x004 v) :: ts) :
    step s = .next { State.ackStatus { s with turns := ts } v with resp := .written } :=
  step_write hr (by decide) (by decide) ht

/-- A write to CMD, taken or dropped by `writeCmd` (10_state.md R29). -/
theorem step_cmd_write (hr : s.rst = false) (ht : s.turns = .host (writeAt 0x008 v) :: ts) :
    step s = .next { State.writeCmd { s with turns := ts } v with resp := .written } :=
  step_write hr (by decide) (by decide) ht

/-- A write to RAND, taken or dropped by `writeRand` (10_state.md R30). -/
theorem step_rand_write (hr : s.rst = false) (ht : s.turns = .host (writeAt 0x00C v) :: ts) :
    step s = .next { State.writeRand { s with turns := ts } v with resp := .written } :=
  step_write hr (by decide) (by decide) ht

/-- Outside IDLE a word written to CMD is dropped (10_state.md R39). -/
theorem State.writeCmd_of_ne_idle (hp : s.phase ≠ .idle) : s.writeCmd v = s.collide := by
  unfold State.writeCmd
  split
  · contradiction
  all_goals rfl

/-- In WAIT_RAND a word written to RAND is the draw (43_miller_rabin.md R151). -/
theorem State.writeRand_of_waitRand (hp : s.phase = .waitRand) : s.writeRand v = s.giveDraw v := by
  simp only [State.writeRand, hp]

/-- Outside WAIT_RAND a word written to RAND is dropped (43_miller_rabin.md R152). -/
theorem State.writeRand_of_ne_waitRand (hp : s.phase ≠ .waitRand) : s.writeRand v = s.collide := by
  unfold State.writeRand
  split
  · contradiction
  all_goals rfl

end Writes

/-- Settles O11: outside IDLE the CMD write is `collide`. -/
theorem commandWriteWhileBusyIsDropped : Obligations.CommandWriteWhileBusyIsDropped := by
  unfold Obligations.CommandWriteWhileBusyIsDropped
  intro s ts w hr hp ht
  rw [step_cmd_write hr ht, State.writeCmd_of_ne_idle (s := { s with turns := ts }) hp]
  rfl

/-- Settles O16: the RAND write, by whether the phase is WAIT_RAND. -/
theorem randRegister : Obligations.RandRegister := by
  unfold Obligations.RandRegister
  intro s ts r hr
  refine ⟨step_rand_read hr, fun ht hp => ?_, fun ht hp => ?_⟩
  · rw [step_rand_write hr ht, State.writeRand_of_waitRand (s := { s with turns := ts }) hp]
    rfl
  · rw [step_rand_write hr ht, State.writeRand_of_ne_waitRand (s := { s with turns := ts }) hp]
    rfl

section ReservedOffsets

/-- The offsets 0x010 to 0x03C and from 0x080 on are reserved (20_memory.md R63). -/
theorem target_reserved {off : Nat} (h : (0x010 ≤ off ∧ off ≤ 0x03C) ∨ (0x080 ≤ off ∧ off ≤ 0x0FC)) :
    target off = .reserved := by
  unfold target
  repeat rw [if_neg (by omega)]

variable {s : State} {ts : List Turn} {off : Nat} (hr : s.rst = false) (h4 : off % 4 = 0)
  (h : (0x010 ≤ off ∧ off ≤ 0x03C) ∨ (0x080 ≤ off ∧ off ≤ 0x0FC))
include hr h4 h

/-- A reserved offset reads 0 (10_state.md R31). -/
theorem step_reserved_read (ht : s.turns = .host (readAt off) :: ts) :
    step s = .next { s with resp := .read 0, turns := ts } := by
  rw [step_read hr (by omega) h4 ht, target_reserved h]
  rfl

/-- A reserved offset ignores writes (10_state.md R31). -/
theorem step_reserved_write {v : Word} (ht : s.turns = .host (writeAt off v) :: ts) :
    step s = .next { s with resp := .written, turns := ts } := by
  rw [step_write hr (by omega) h4 ht, target_reserved h]
  rfl

end ReservedOffsets

section Bits

/-- `bitAt b n` has its one bit at place `n`. -/
theorem getLsbD_bitAt (b : Bool) {n : Nat} (hn : n < 32) (k : Nat) :
    (bitAt b n).getLsbD k = (b && decide (k = n)) := by
  by_cases h : k = n
  · subst h
    simp [bitAt, hn]
  · have hk : k < n ∨ k - n ≠ 0 := by omega
    rcases hk with hk | hk <;> simp [bitAt, h, hk]

/-- ECODE's number fits in its lowest two bits (60_exceptions.md R210). -/
theorem ECode.code_toNat_lt (e : ECode) : e.code.toNat < 2 ^ 2 := by cases e <;> decide

/-- In STATUS the number of ECODE reaches bits 8 and 9 only (10_state.md R27). -/
theorem ECode.getLsbD_code_shift (e : ECode) {k : Nat} (hk : k < 8 ∨ 10 ≤ k) :
    (e.code <<< 8).getLsbD k = false := by
  rcases hk with hk | hk
  · simp [hk]
  · have hc : e.code.getLsbD (k - 8) = false :=
      Nat.testBit_lt_two_pow (e.code_toNat_lt.trans_le (Nat.pow_le_pow_right (by decide) (by omega)))
    simp [hc]

/-- CTRL reads 0 in every bit from 2 on (10_state.md R26). -/
theorem State.getLsbD_ctrlWord (s : State) {k : Nat} (hk : 2 ≤ k) : s.ctrlWord.getLsbD k = false := by
  have h0 : k ≠ 0 := by omega
  have h1 : k ≠ 1 := by omega
  simp [State.ctrlWord, getLsbD_bitAt, h0, h1]

/-- STATUS reads 0 in bits 5 to 7 and in every bit from 12 on (10_state.md R27). -/
theorem State.getLsbD_statusWord_reserved (s : State) {k : Nat} (hk : (5 ≤ k ∧ k ≤ 7) ∨ 12 ≤ k) :
    s.statusWord.getLsbD k = false := by
  have hcode : (s.ecode.code <<< 8).getLsbD k = false := s.ecode.getLsbD_code_shift (by omega)
  have hbit : ∀ (b : Bool) (n : Nat), n < 5 → (bitAt b n).getLsbD k = false := by
    intro b n hn
    have hkn : k ≠ n := by omega
    simp [getLsbD_bitAt b (by omega : n < 32), hkn]
  simp [State.statusWord, BitVec.getLsbD_or, hcode, hbit]

end Bits

section Effects
variable (s : State) {v w : Word}

/-- A CTRL write reads bits 0, 1 and 31 of its Word only (10_state.md R26, R31). -/
theorem State.writeCtrl_congr (h0 : v.getLsbD 0 = w.getLsbD 0) (h1 : v.getLsbD 1 = w.getLsbD 1)
    (h31 : v.getLsbD 31 = w.getLsbD 31) : s.writeCtrl v = s.writeCtrl w := by
  simp only [State.writeCtrl, State.setEnables, h0, h1, h31]

/-- A STATUS write reads bits 1 and 4 of its Word only (10_state.md R27, R31). -/
theorem State.ackStatus_congr (h1 : v.getLsbD 1 = w.getLsbD 1) (h4 : v.getLsbD 4 = w.getLsbD 4) :
    s.ackStatus v = s.ackStatus w := by
  simp only [State.ackStatus, h1, h4]

/-- A CTRL write leaves COLL, or clears it by a soft reset (10_state.md R26). -/
theorem State.writeCtrl_coll (v : Word) : (s.writeCtrl v).coll = (s.coll && !v.getLsbD 31) := by
  rcases writeCtrl_cases s v with ⟨hv, he⟩ | ⟨hv, he⟩ <;> rw [he, hv]
  · exact (Bool.and_false _).symm
  · exact (Bool.and_true _).symm

/-- A STATUS write leaves COLL, or clears it by bit 4 (10_state.md R27). -/
@[simp] theorem State.ackStatus_coll (v : Word) : (s.ackStatus v).coll = (s.coll && !v.getLsbD 4) := rfl

end Effects

/-- Settles O17: the reserved offsets by `target_reserved`, the reserved fields bit by bit, and the writes
by the few bits of the Word that they read. -/
theorem reservedFieldsAndOffsets : Obligations.ReservedFieldsAndOffsets := by
  unfold Obligations.ReservedFieldsAndOffsets
  intro s ts hr
  have ctrl : ∀ v, step { s with turns := .host (writeAt 0x000 v) :: ts } =
      .next { State.writeCtrl { s with turns := ts } v with resp := .written } :=
    fun v => step_ctrl_write hr rfl
  have status : ∀ v, step { s with turns := .host (writeAt 0x004 v) :: ts } =
      .next { State.ackStatus { s with turns := ts } v with resp := .written } :=
    fun v => step_status_write hr rfl
  refine ⟨fun off v h4 h => ⟨step_reserved_read hr h4 h, step_reserved_write hr h4 h⟩,
    fun ht => ⟨_, step_ctrl_read hr ht, fun n h2 _ => s.getLsbD_ctrlWord h2⟩,
    fun ht => ⟨_, step_status_read hr ht, fun n h5 h7 => s.getLsbD_statusWord_reserved (.inl ⟨h5, h7⟩),
      fun n h12 _ => s.getLsbD_statusWord_reserved (.inr h12)⟩,
    fun v w h0 h1 h31 => ?_, fun v w h => ?_, fun t v ht hc => ?_⟩
  · rw [ctrl, ctrl, State.writeCtrl_congr _ h0 h1 h31]
  · rw [status, status, State.ackStatus_congr _ (h 1 (by decide) (by decide)) (h 4 (by decide) (by decide))]
  · rcases ht with ht | ht
    · rw [ctrl] at ht
      cases ht
      exact (Bool.and_eq_true_iff.mp ((State.writeCtrl_coll _ v).symm.trans hc)).1
    · rw [status] at ht
      cases ht
      exact (Bool.and_eq_true_iff.mp ((State.ackStatus_coll _ v).symm.trans hc)).1

/-- Settles O18, by what a host read may change (`hostRead_eq`). -/
theorem readsHaveNoSideEffect : Obligations.ReadsHaveNoSideEffect := by
  unfold Obligations.ReadsHaveNoSideEffect
  intro s ts off hr hlt h4 ht
  obtain ⟨v, n, hread⟩ := hostRead_eq { s with turns := ts } (target off)
  exact ⟨v, n, by rw [step_read hr hlt h4 ht, hread]⟩

section ErrorReport
variable {s : State}

/-- While an error is reported no command is in execution (10_state.md R35). -/
theorem State.Inv.idle_of_err (hi : s.Inv) (he : s.err = true) : s.phase = .idle := by
  by_contra hp
  have hbusy : s.busy = true := by simp [State.busy, hp]
  simp [hi.busyNoError hbusy] at he

/-- A host write leaves ERR and ECODE, but for an accepted command and a soft reset
(10_state.md R28). -/
theorem hostWrite_error_report (s : State) (v : Word) {off : Nat} (h4 : off % 4 = 0) (h : off < 256) :
    ((s.hostWrite v (target off)).err = s.err ∧ (s.hostWrite v (target off)).ecode = s.ecode) ∨
    (off = 0x008 ∧ s.phase = .idle ∧ (s.hostWrite v (target off)).cmdLatch = v) ∨
    (off = 0x000 ∧ v.getLsbD 31 = true) := by
  rcases hostWrite_cases s v h4 h with ⟨ho, hw⟩ | ⟨_, hw⟩ | ⟨ho, hp, hw⟩ | ⟨_, _, hw⟩ | ⟨_, _, _, hw⟩ |
    ⟨_, hw⟩ | ⟨_, hw⟩ <;> rw [hw]
  case inl =>
    rcases writeCtrl_cases s v with ⟨hv, _⟩ | ⟨_, hc⟩
    · exact .inr (.inr ⟨ho, hv⟩)
    · rw [hc]
      exact .inl ⟨rfl, rfl⟩
  case inr.inr.inl => exact .inr (.inl ⟨ho, hp, rfl⟩)
  all_goals exact .inl ⟨rfl, rfl⟩

end ErrorReport

/-- Settles O22: while ERR is set the CORE is IDLE, so its own step changes nothing, and a host write
clears the report only by `hostWrite_error_report`. -/
theorem errorReportStays : Obligations.ErrorReportStays := by
  unfold Obligations.ErrorReportStays
  refine ⟨fun s t hi hs he => ?_, fun s ts v hr ht hv => ?_⟩
  · have hp : s.phase = .idle := hi.idle_of_err he
    rcases step_cases hs with ⟨_, hcore⟩ | ⟨off, us, _, _, _, _, rfl⟩ |
      ⟨off, v, us, hu, _, hlt, h4, rfl⟩ | ⟨level, us, hu, rfl⟩
    · rw [coreStep_still (.inr (by simp [hp]))] at hcore
      cases hcore
      exact .inl ⟨he, rfl⟩
    · obtain ⟨v, n, hread⟩ := hostRead_eq { s with turns := us } (target off)
      rw [hread]
      exact .inl ⟨he, rfl⟩
    · rcases hostWrite_error_report { s with turns := us } v h4 hlt with
        ⟨herr, hcode⟩ | ⟨rfl, _, hlatch⟩ | ⟨rfl, hv⟩
      · exact .inl ⟨herr.trans he, hcode⟩
      · exact .inr (.inl ⟨hp, v, by rw [hu]; rfl, hlatch⟩)
      · exact .inr (.inr (.inl ⟨v, hv, by rw [hu]; rfl⟩))
    · cases level
      · exact .inl ⟨he, rfl⟩
      · exact .inr (.inr (.inr (by rw [hu]; rfl)))
  · have hdone : (State.ackStatus { s with turns := ts } v).done = false := by
      simp [State.ackStatus, hv]
    exact ⟨_, step_status_write hr ht, hdone, rfl, rfl⟩

end Sys2Proof.Machine
end

section
/-! PROOFS. The Block (20_memory.md R61): what the Word packed from a chunk is as a number, what the bytes
of a Word are as numbers, and O7. -/

namespace Sys2Proof.Machine

/-- The packed number fits in a Word, so packing loses nothing (20_memory.md R61). -/
@[simp] theorem packBlock_toNat (chunk : List Byte) :
    (packBlock chunk).toNat =
      (chunk.getD 0 0).toNat * 2 ^ 24 + (chunk.getD 1 0).toNat * 2 ^ 16 + (chunk.getD 2 0).toNat * 2 ^ 8
        + (chunk.getD 3 0).toNat := by
  rw [packBlock, BitVec.toNat_ofNat, Nat.mod_eq_of_lt]
  have h0 := (chunk.getD 0 0).isLt
  have h1 := (chunk.getD 1 0).isLt
  have h2 := (chunk.getD 2 0).isLt
  have h3 := (chunk.getD 3 0).isLt
  omega

/-- The bytes c[31:24], c[23:16], c[15:8], c[7:0] as numbers (20_memory.md R61). -/
theorem unpackBlock_map_toNat (c : Word) :
    (unpackBlock c).map BitVec.toNat =
      [c.toNat / 2 ^ 24, c.toNat / 2 ^ 16 % 2 ^ 8, c.toNat / 2 ^ 8 % 2 ^ 8, c.toNat % 2 ^ 8] := by
  have htop : c.toNat / 2 ^ 24 % 2 ^ 8 = c.toNat / 2 ^ 24 := Nat.mod_eq_of_lt (by omega)
  simp only [unpackBlock, List.map, BitVec.extractLsb'_toNat, Nat.shiftRight_eq_div_pow, htop, pow_zero,
    Nat.div_one]

/-- Unpacking undoes the packing of four bytes: they are the digits of the packed number in base 256. -/
theorem unpackBlock_packBlock (b0 b1 b2 b3 : Byte) :
    unpackBlock (packBlock [b0, b1, b2, b3]) = [b0, b1, b2, b3] := by
  apply List.map_injective_iff.mpr (fun _ _ => BitVec.eq_of_toNat_eq)
  have h1 := b1.isLt
  have h2 := b2.isLt
  have h3 := b3.isLt
  simp only [unpackBlock_map_toNat, packBlock_toNat, List.getD_cons_zero, List.getD_cons_succ, List.map,
    List.cons.injEq, and_true]
  omega

/-- Packing undoes unpacking: a Word is the sum of its digits in base 256. -/
theorem packBlock_unpackBlock (c : Word) : packBlock (unpackBlock c) = c := by
  apply BitVec.eq_of_toNat_eq
  have hdigits := unpackBlock_map_toNat c
  simp only [unpackBlock, List.map, List.cons.injEq] at hdigits
  obtain ⟨h0, h1, h2, h3, -⟩ := hdigits
  simp only [packBlock_toNat, unpackBlock, List.getD_cons_zero, List.getD_cons_succ, h0, h1, h2, h3]
  omega

/-- Zeros added on the right change no byte that packing reads, so they do not change the packed Word
(20_memory.md R61). -/
theorem packBlock_append_zeros (chunk : List Byte) (n : Nat) :
    packBlock (chunk ++ List.replicate n 0) = packBlock chunk := by
  have hbyte : ∀ i, (chunk ++ List.replicate n 0).getD i 0 = chunk.getD i 0 := by
    intro i
    rcases Nat.lt_or_ge i chunk.length with hi | hi
    · exact List.getD_append _ _ _ _ hi
    · rw [List.getD_append_right _ _ _ _ hi, List.getD_eq_default _ _ hi, List.getD_eq_getElem?_getD,
        List.getElem?_getD_replicate_default_eq]
  simp only [packBlock, hbyte]

/-- Settles O7: packing and unpacking are inverse because the bytes are the digits of the Word in base
256, and padding on the right is `packBlock_append_zeros`. -/
theorem blockPacking : Obligations.BlockPacking := by
  unfold Obligations.BlockPacking
  refine ⟨fun b0 b1 b2 b3 => ⟨packBlock_toNat _, unpackBlock_packBlock b0 b1 b2 b3⟩,
    fun chunk _ => (packBlock_append_zeros chunk _).symm,
    fun c => ⟨packBlock_unpackBlock c, unpackBlock_map_toNat c⟩, by decide, by decide⟩

end Sys2Proof.Machine
end

section
/-! PROOFS. The worked encodings (30_encoding.md R102): decoding undoes encoding, so a line of assembly
gives a word that decodes to the line's command; and O5. -/

namespace Sys2Proof.Machine

/-- OPC of a command word, as the 8-bit field that `decode` compares (30_encoding.md R90). -/
theorem opcOf_formatC_eq_ofNat {opc : Nat} (hopc : opc < 256) (rd rs1 rs2 rm : RegNum) :
    opcOf (formatC opc rd rs1 rs2 rm) = BitVec.ofNat 8 opc := by
  apply BitVec.eq_of_toNat_eq
  rw [opcOf_formatC hopc, BitVec.toNat_ofNat, Nat.mod_eq_of_lt hopc]

/-- The decoder reads every field of a command word back (30_encoding.md R90, R97, R98). -/
@[simp] theorem decode_encode (i : Instr) : decode (encode i) = .command i := by
  cases i <;>
    simp [decode, encode, rsvOf_formatC, opcOf_formatC_eq_ofNat, rdField_formatC, rs1Field_formatC,
      rs2Field_formatC, rmField_formatC]

/-- A line that parses to `c`, which stands for the command `i`, gives the word of `i`, and the CORE
decodes that word to `i` again (30_encoding.md R98, R99). -/
theorem assembleLine_and_decode {line : List Char} (c : SourceCommand) (i : Instr)
    (hparse : parseLine line = some c) (hasm : assemble c = some i) :
    assembleLine line = some (encode i) ∧ decode (encode i) = .command i := by
  simp [assembleLine, hparse, hasm]

/-- Settles O5: each line of the table by how it parses, MDBL being the MADD that repeats its source
register; each illegal word by the check of R98 that it fails. -/
theorem workedEncodings : Obligations.WorkedEncodings := by
  unfold Obligations.WorkedEncodings
  refine ⟨?madd, ?msub, ?mmul, ?mpow, ?mpowChained, ?mrt, ?minv, ?gcd, ⟨?mdbl, ?mdblIsMadd⟩, ?illegal⟩
  case madd => exact assembleLine_and_decode ⟨.madd, [3, 1, 2, 4]⟩ (.madd 3 1 2 4) (by decide) (by decide)
  case msub => exact assembleLine_and_decode ⟨.msub, [3, 1, 2, 4]⟩ (.msub 3 1 2 4) (by decide) (by decide)
  case mmul => exact assembleLine_and_decode ⟨.mmul, [5, 0, 3, 1]⟩ (.mmul 5 0 3 1) (by decide) (by decide)
  case mpow => exact assembleLine_and_decode ⟨.mpow, [4, 0, 1, 3]⟩ (.mpow 4 0 1 3) (by decide) (by decide)
  case mpowChained => exact assembleLine_and_decode ⟨.mpow, [5, 4, 2, 3]⟩ (.mpow 5 4 2 3) (by decide) (by decide)
  case mrt => exact assembleLine_and_decode ⟨.mrt, [2, 0, 1]⟩ (.mrt 2 0 1) (by decide) (by decide)
  case minv => exact assembleLine_and_decode ⟨.minv, [3, 0, 1]⟩ (.minv 3 0 1) (by decide) (by decide)
  case gcd => exact assembleLine_and_decode ⟨.gcd, [2, 0, 1]⟩ (.gcd 2 0 1) (by decide) (by decide)
  case mdbl =>
    exact (assembleLine_and_decode ⟨.mdbl, [1, 1, 15]⟩ (.madd 1 1 1 15) (by decide) (by decide)).left
  case mdblIsMadd =>
    exact assembleLine_and_decode ⟨.madd, [1, 1, 1, 15]⟩ (.madd 1 1 1 15) (by decide) (by decide)
  case illegal => exact ⟨by decide, by decide, by decide, by decide⟩

end Sys2Proof.Machine
end

section
/-! PROOFS. The modular_adder (40_modular_adder.md R114): its function's laws, a command issued from IDLE
and run by the CORE step after it, and O50. -/

namespace Sys2Proof.Machine

section AdderLaws
variable {a b m : Word} (ha : a.toNat < m.toNat) (hb : b.toNat < m.toNat)
include ha hb

/-- 40_modular_adder.md R114's law of ModSub, on integers. -/
theorem modSub_toInt : ((modSub a b m).toNat : Int) = ((a.toNat : Int) - b.toNat) % m.toNat := by
  rw [modSub_toNat ha hb]
  push_cast [hb.le]
  rw [show (a.toNat : Int) + (m.toNat - b.toNat) = a.toNat - b.toNat + m.toNat by ring, Int.add_emod_right]

theorem modAdd_comm : modAdd a b m = modAdd b a m := by
  apply BitVec.eq_of_toNat_eq
  rw [modAdd_toNat ha hb, modAdd_toNat hb ha, Nat.add_comm]

/-- Subtracting b from the reduced sum and from a + b gives the same remainder, and a is its own. -/
theorem modSub_modAdd_cancel : modSub (modAdd a b m) b m = a := by
  apply BitVec.eq_of_toNat_eq
  zify
  calc ((modSub (modAdd a b m) b m).toNat : Int)
      = ((a.toNat + b.toNat) % m.toNat - b.toNat) % m.toNat := by
        rw [modSub_toInt (modAdd_lt ha hb) hb, modAdd_toNat ha hb, Int.natCast_mod, Int.natCast_add]
    _ = a.toNat % m.toNat := by rw [Int.emod_sub_emod, Int.add_sub_cancel]
    _ = a.toNat := Int.emod_eq_of_lt (by omega) (by omega)

end AdderLaws

/-- The state in which the CORE runs a command that the host issued from IDLE, with `ts` still to come
(10_state.md R35, R36). -/
def State.issued (s : State) (i : Instr) (ts : List Turn) : State :=
  { s.accept (encode i) with resp := .written, turns := ts }

section Issued
variable (s : State) (i : Instr) (ts : List Turn)

/-- What issuing a command leaves of the state, field by field (10_state.md R35). -/
theorem State.issued_eq :
    s.issued i ts =
      { s with
        done := false, err := false, ecode := .none, cmdLatch := encode i, phase := .exec
        resp := .written, turns := ts
        work := { s.work with
          opA := s.reg (rs1Of i)
          opB := s.latched (rs2Of i) s.work.opB
          opM := s.latched (rmOf i) s.work.opM
          mr := { s.work.mr with draw := none } } } := by
  rw [State.issued, State.accept_of_command (decode_encode i)]

@[simp] theorem State.issued_phase : (s.issued i ts).phase = .exec := rfl
@[simp] theorem State.issued_cmdLatch : (s.issued i ts).cmdLatch = encode i := rfl
@[simp] theorem State.issued_turns : (s.issued i ts).turns = ts := rfl
@[simp] theorem State.issued_rst : (s.issued i ts).rst = s.rst := by rw [State.issued_eq]
@[simp] theorem State.issued_reg (r : RegNum) : (s.issued i ts).reg r = s.reg r := by
  rw [State.issued_eq]; rfl
@[simp] theorem State.issued_opA : (s.issued i ts).work.opA = s.reg (rs1Of i) := by rw [State.issued_eq]
@[simp] theorem State.issued_opB :
    (s.issued i ts).work.opB = s.latched (rs2Of i) s.work.opB := by rw [State.issued_eq]
@[simp] theorem State.issued_opM :
    (s.issued i ts).work.opM = s.latched (rmOf i) s.work.opM := by rw [State.issued_eq]

end Issued

/-- A completion leaves every register but rd (10_state.md R37). -/
theorem State.complete_reg_of_ne (s : State) {rd r : RegNum} (v : Word) (h : r ≠ rd) :
    (s.complete rd v).reg r = s.reg r := State.reg_setReg_of_ne s rd r v h

/-- MADD on admissible operands (40_modular_adder.md R111). -/
theorem execMadd_of_lt {s : State} (rd : RegNum) (ha : s.work.opA.toNat < s.work.opM.toNat)
    (hb : s.work.opB.toNat < s.work.opM.toNat) :
    execMadd rd s = .next (s.complete rd (modAdd s.work.opA s.work.opB s.work.opM)) :=
  if_pos ⟨ha, hb⟩

/-- MSUB on admissible operands (40_modular_adder.md R113). -/
theorem execMsub_of_lt {s : State} (rd : RegNum) (ha : s.work.opA.toNat < s.work.opM.toNat)
    (hb : s.work.opB.toNat < s.work.opM.toNat) :
    execMsub rd s = .next (s.complete rd (modSub s.work.opA s.work.opB s.work.opM)) :=
  if_pos ⟨ha, hb⟩

section IssuedRuns
variable {s : State} {ts : List Turn} (hr : s.rst = false) (hp : s.phase = .idle)
include hr hp

/-- A CMD write while IDLE and the CORE step after it run the command on the registers' values
(10_state.md R35, R36, R42). -/
theorem run_issued {i : Instr} {t : State}
    (ht : s.turns = .host (writeAt 0x008 (encode i)) :: .core :: ts)
    (hexec : exec i (s.issued i ts) = .next t) :
    Host.Core.run Sys2Proof.core 2 s = .next t := by
  have hwrite : step s = .next (s.issued i (.core :: ts)) := by
    rw [step_command_write hr hp ht, State.accept_of_command (decode_encode i), State.issued_eq]
    rfl
  have hcore : step (s.issued i (.core :: ts)) = .next t := by
    rw [step_core (.inr rfl), ← hexec]
    exact coreStep_command (s := s.issued i ts) (by simpa using hr) rfl (decode_encode i)
  rw [run_succ_of_step hwrite, run_succ_of_step hcore]
  rfl

variable {rd rs1 rs2 rm : RegNum} (ha : (s.reg rs1).toNat < (s.reg rm).toNat)
  (hb : (s.reg rs2).toNat < (s.reg rm).toNat)
include ha hb

/-- A MADD issued from IDLE, from the registers to the register (40_modular_adder.md R111). -/
theorem run_issued_madd (ht : s.turns = .host (writeAt 0x008 (encode (.madd rd rs1 rs2 rm))) :: .core :: ts) :
    Host.Core.run Sys2Proof.core 2 s =
      .next ((s.issued (.madd rd rs1 rs2 rm) ts).complete rd
        (modAdd (s.reg rs1) (s.reg rs2) (s.reg rm))) := by
  refine run_issued hr hp ht ((execMadd_of_lt rd ?_ ?_).trans ?_)
  · simpa [rs1Of, rmOf, State.latched] using ha
  · simpa [rs2Of, rmOf, State.latched] using hb
  · simp [rs1Of, rs2Of, rmOf, State.latched]

/-- A MSUB issued from IDLE, from the registers to the register (40_modular_adder.md R113). -/
theorem run_issued_msub (ht : s.turns = .host (writeAt 0x008 (encode (.msub rd rs1 rs2 rm))) :: .core :: ts) :
    Host.Core.run Sys2Proof.core 2 s =
      .next ((s.issued (.msub rd rs1 rs2 rm) ts).complete rd
        (modSub (s.reg rs1) (s.reg rs2) (s.reg rm))) := by
  refine run_issued hr hp ht ((execMsub_of_lt rd ?_ ?_).trans ?_)
  · simpa [rs1Of, rmOf, State.latched] using ha
  · simpa [rs2Of, rmOf, State.latched] using hb
  · simp [rs1Of, rs2Of, rmOf, State.latched]

end IssuedRuns

/-- Settles O50: the laws from the unit's results as numbers, and in commands the MSUB reads the sum that
the MADD left in rt and the values that it left alone in rs2 and rm. -/
theorem modularAdderLaws : Obligations.ModularAdderLaws := by
  unfold Obligations.ModularAdderLaws
  refine ⟨fun a b m ha hb => ⟨modAdd_toNat ha hb, modSub_toInt ha hb, modAdd_lt ha hb, modSub_lt ha hb,
    modAdd_comm ha hb, modSub_modAdd_cancel ha hb⟩, ?_⟩
  intro s ts rs1 rs2 rm rt ru hr hp ha hb hrs2 hrm ht
  have hadd := run_issued_madd hr hp ha hb ht
  generalize hsum : State.complete _ rt _ = t at hadd
  have hrt : t.reg rt = modAdd (s.reg rs1) (s.reg rs2) (s.reg rm) := by simp [← hsum]
  have hkept : ∀ r, rt ≠ r → t.reg r = s.reg r := fun r h => by
    rw [← hsum, State.complete_reg_of_ne _ _ h.symm, State.issued_reg]
  have hsumLt : (t.reg rt).toNat < (t.reg rm).toNat := by
    rw [hrt, hkept rm hrm]
    exact modAdd_lt ha hb
  have hbKept : (t.reg rs2).toNat < (t.reg rm).toNat := by rwa [hkept rs2 hrs2, hkept rm hrm]
  have hturns : t.turns = .host (writeAt 0x008 (encode (.msub ru rt rs2 rm))) :: .core :: ts := by
    simp [← hsum]
  have hsub := run_issued_msub (by simpa [← hsum] using hr) (by simp [← hsum]) hsumLt hbKept hturns
  rw [hrt, hkept rs2 hrs2, hkept rm hrm, modSub_modAdd_cancel ha hb] at hsub
  exact ⟨_, (run_add_of_run 2 2 s hadd).trans hsub, by simp, rfl, rfl, by simp⟩

end Sys2Proof.Machine
end

section
/-! PROOFS. The laws of the modular multiplier (41_modular_multiplier.md R132), from the result that the
double-and-add loop leaves as a number (`modMul_toNat`). -/

namespace Sys2Proof.Machine

section MultiplierLaws
variable {x y m : Word}

/-- The two operand orders run different loops; their results agree as numbers. -/
theorem modMul_comm (hx : x.toNat < m.toNat) (hy : y.toNat < m.toNat) : modMul x y m = modMul y x m := by
  apply BitVec.eq_of_toNat_eq
  rw [modMul_toNat hx, modMul_toNat hy, Nat.mul_comm]

/-- Multiplying by 1 reduces any Word modulo m, for the 1 itself is below m. -/
theorem modMul_one_left (hm : 2 ≤ m.toNat) : (modMul 1 y m).toNat = y.toNat % m.toNat := by
  have hone : (1 : Word).toNat < m.toNat := hm
  rw [modMul_toNat hone]
  simp

end MultiplierLaws

/-- Settles O51: bound, value and commutativity from the loop's result, and the reduction by a factor of 1. -/
theorem modularMultiplierLaws : Obligations.ModularMultiplierLaws := by
  unfold Obligations.ModularMultiplierLaws
  exact fun x y m hm => ⟨fun hx => ⟨modMul_lt hx, modMul_toNat hx⟩, modMul_comm, modMul_one_left hm⟩

end Sys2Proof.Machine
end

section
/-! PROOFS. The laws of the modular exponentiation engine (42_modular_exponentiation.md R142), from the result
that the square-and-multiply loop leaves as a number (`modPow_toNat`). -/

namespace Sys2Proof.Machine

section ExponentiationLaws
variable {b e m : Word}

theorem modPow_lt (hm : 2 ≤ m.toNat) (hb : b.toNat < m.toNat) : (modPow b e m).toNat < m.toNat := by
  rw [modPow_toNat hm hb]; exact Nat.mod_lt _ (by omega)

/-- An exponentiation is undone by another whose exponent is inverse to the first modulo φ(m): this is why
RSA decryption returns the message.  Euler's theorem reduces the product of the exponents to 1. -/
theorem modPow_modPow_cancel {d : Word} (hm : 2 ≤ m.toNat) (hb : b.toNat < m.toNat)
    (hcop : Nat.Coprime b.toNat m.toNat) (hed : e.toNat * d.toNat % Nat.totient m.toNat = 1) :
    modPow (modPow b e m) d m = b := by
  apply BitVec.eq_of_toNat_eq
  calc (modPow (modPow b e m) d m).toNat
      = (b.toNat ^ e.toNat % m.toNat) ^ d.toNat % m.toNat := by
        rw [modPow_toNat hm (modPow_lt hm hb), modPow_toNat hm hb]
    _ = b.toNat ^ (e.toNat * d.toNat) % m.toNat := by rw [← Nat.pow_mod, ← pow_mul]
    _ = b.toNat ^ 1 % m.toNat := by rw [Nat.pow_totient_mod (by omega) hcop, hed]
    _ = b.toNat := by rw [pow_one, Nat.mod_eq_of_lt hb]

end ExponentiationLaws

/-- The source's modulus is 61 * 53. -/
theorem totient_3233 : Nat.totient 3233 = 3120 := by
  have hp : Nat.Prime 61 := by norm_num
  have hq : Nat.Prime 53 := by norm_num
  calc Nat.totient (61 * 53) = Nat.totient 61 * Nat.totient 53 := Nat.totient_mul (by norm_num)
    _ = 3120 := by rw [Nat.totient_prime hp, Nat.totient_prime hq]

/-- Encryption in the source's end-to-end scenario: the message 65 under the public exponent 17. -/
theorem modPow_encrypts_65 : modPow 65 17 3233 = 2790 := by
  apply BitVec.eq_of_toNat_eq
  rw [modPow_toNat (by decide) (by decide)]
  decide

/-- Decryption in the source's end-to-end scenario: 2753 is inverse to 17 modulo φ(3233) = 3120. -/
theorem modPow_decrypts_2790 : modPow 2790 2753 3233 = 65 := by
  have hed : (17 : Word).toNat * (2753 : Word).toNat % Nat.totient (3233 : Word).toNat = 1 := by
    simp [totient_3233]
  rw [← modPow_encrypts_65]
  exact modPow_modPow_cancel (by decide) (by decide) (by decide) hed

/-- Settles O52: bound and value from the loop's result, exponent 0 by the loop's not being entered, and the
scenario as an encryption and the decryption that undoes it. -/
theorem modularExponentiationLaws : Obligations.ModularExponentiationLaws := by
  unfold Obligations.ModularExponentiationLaws
  exact ⟨fun b _ m hm => ⟨fun hb => ⟨modPow_lt hm hb, modPow_toNat hm hb⟩, modPow_zero b m⟩,
    modPow_encrypts_65, modPow_decrypts_2790⟩

end Sys2Proof.Machine
end

section
/-! PROOFS. The mapping from a draw to the base of a Miller-Rabin round (43_miller_rabin.md R154).  Its one
idea: the smallest draw of a base is a lower adjoint of the mapping (`le_baseNat_iff`). -/

namespace Sys2Proof.Machine

/-- The smallest draw of base a for the candidate c: (a - 1) * 2^32 / (c - 2) rounded up. -/
def leastDraw (c a : Nat) : Nat := ((a - 1) * 2 ^ 32 + (c - 2 - 1)) / (c - 2)

section SmallestDraw
variable {c a r : Nat}

theorem baseNat_mono (c : Nat) : Monotone (baseNat c) := fun _ _ h => by
  unfold baseNat
  gcongr

theorem leastDraw_eq_ceilDiv (hc : 3 ≤ c) : leastDraw c a = (a - 1) * 2 ^ 32 ⌈/⌉ (c - 2) := by
  rw [leastDraw, Nat.ceilDiv_eq_add_pred_div, Nat.add_sub_assoc (by omega)]

theorem le_baseNat_iff (hc : 3 ≤ c) : a ≤ baseNat c r ↔ leastDraw c a ≤ r := by
  calc a ≤ 1 + r * (c - 2) / 2 ^ 32
      ↔ a - 1 ≤ r * (c - 2) / 2 ^ 32 := by rw [Nat.sub_le_iff_le_add']
    _ ↔ (a - 1) * 2 ^ 32 ≤ (c - 2) * r := by rw [Nat.le_div_iff_mul_le (by norm_num), Nat.mul_comm r]
    _ ↔ leastDraw c a ≤ r := by
      rw [leastDraw_eq_ceilDiv hc, ceilDiv_le_iff_le_mul (show 0 < c - 2 by omega)]

/-- The divisor is below 2^32, so the next base needs a larger draw: no base is skipped. -/
theorem leastDraw_lt_succ (hc : 3 ≤ c) (hc32 : c < 2 ^ 32) (ha : 1 ≤ a) :
    leastDraw c a < leastDraw c (a + 1) := by
  unfold leastDraw
  rw [Nat.lt_iff_add_one_le, ← Nat.add_div_right _ (show 0 < c - 2 by omega)]
  exact Nat.div_le_div_right (by omega)

theorem baseNat_leastDraw (hc : 3 ≤ c) (hc32 : c < 2 ^ 32) (ha : 1 ≤ a) :
    baseNat c (leastDraw c a) = a := by
  have hle : a ≤ baseNat c (leastDraw c a) := (le_baseNat_iff hc).mpr le_rfl
  have hnot : ¬ a + 1 ≤ baseNat c (leastDraw c a) := by
    rw [le_baseNat_iff hc, Nat.not_le]
    exact leastDraw_lt_succ hc hc32 ha
  omega

/-- The smallest draw of a base in the range is a Word. -/
theorem leastDraw_lt (hc : 3 ≤ c) (hc32 : c < 2 ^ 32) (ha : a ≤ c - 2) : leastDraw c a < 2 ^ 32 := by
  unfold leastDraw
  rw [Nat.div_lt_iff_lt_mul (by omega)]
  omega

end SmallestDraw

section WordBase
variable {c a r r' : Word}

theorem baseOf_mono (hc : 3 ≤ c.toNat) (h : r.toNat ≤ r'.toNat) :
    (baseOf c r).toNat ≤ (baseOf c r').toNat := by
  rw [baseOf_toNat r hc, baseOf_toNat r' hc]
  exact baseNat_mono _ h

/-- For the smallest odd candidate the range leaves one base. -/
theorem baseOf_three (r : Word) : baseOf 3 r = 1 := by
  have hc : 3 ≤ (3 : Word).toNat := by decide
  apply BitVec.eq_of_toNat_eq
  rw [baseOf_toNat r hc]
  obtain ⟨hlow, hhigh⟩ := baseNat_range hc r.isLt
  exact le_antisymm hhigh hlow

theorem baseOf_eq_iff (hc : 3 ≤ c.toNat) : baseOf c r = a ↔ baseNat c.toNat r.toNat = a.toNat := by
  rw [← BitVec.toNat_inj, baseOf_toNat r hc]

theorem exists_smallest_draw (hc : 3 ≤ c.toNat) (ha : 1 ≤ a.toNat) (hac : a.toNat ≤ c.toNat - 2) :
    ∃ q : Word, q.toNat = leastDraw c.toNat a.toNat ∧ baseOf c q = a ∧
      ∀ r : Word, baseOf c r = a → q.toNat ≤ r.toNat := by
  have hq : (BitVec.ofNat 32 (leastDraw c.toNat a.toNat)).toNat = leastDraw c.toNat a.toNat := by
    rw [BitVec.toNat_ofNat, Nat.mod_eq_of_lt (leastDraw_lt hc c.isLt hac)]
  refine ⟨BitVec.ofNat 32 (leastDraw c.toNat a.toNat), hq, ?_, fun r hr => ?_⟩
  · rw [baseOf_eq_iff hc, hq]
    exact baseNat_leastDraw hc c.isLt ha
  · rw [hq, ← le_baseNat_iff hc]
    exact ((baseOf_eq_iff hc).mp hr).ge

end WordBase

/-- Settles O44: formula, range and monotonicity from the base as a number, the smallest draw from the
adjunction `le_baseNat_iff`, and the source's example by evaluation. -/
theorem baseMapping : Obligations.BaseMapping := by
  unfold Obligations.BaseMapping
  refine ⟨fun c r _ hc => ?_, fun _ _ _ => baseOf_mono, baseOf_three, fun _ _ => exists_smallest_draw,
    by decide, by decide⟩
  rw [baseOf_toNat r hc]
  exact ⟨rfl, baseNat_range hc r.isLt⟩

end Sys2Proof.Machine
end

section
/-! PROOFS. The laws of the modular inverse and of GCD (44_extended_gcd.md R172, R182), from what the two
Euclidean loops leave (`modInv_of_coprime`, `modInv_of_not_coprime`, `gcdWord_toNat`). -/

namespace Sys2Proof.Machine

section InverseLaws
variable {a m : Word}

/-- The sentinel 0 is no inverse, for a * 0 is 0 and not 1. -/
theorem modInv_pos (hm : 2 ≤ m.toNat) (h : Nat.gcd a.toNat m.toNat = 1) : 1 ≤ (modInv a m).toNat := by
  have hinv := (modInv_of_coprime hm h).2
  by_contra h0
  rw [show (modInv a m).toNat = 0 by omega] at hinv
  simp at hinv

/-- A factor coprime to m cancels modulo m, so a has no second inverse below m. -/
theorem eq_modInv_of_mul_mod_eq_one (hm : 2 ≤ m.toNat) (h : Nat.gcd a.toNat m.toNat = 1) {v : Nat}
    (hv : v < m.toNat) (hinv : a.toNat * v % m.toNat = 1) : v = (modInv a m).toNat := by
  obtain ⟨hlt, hmul⟩ := modInv_of_coprime hm h
  have hmod : a.toNat * v ≡ a.toNat * (modInv a m).toNat [MOD m.toNat] := hinv.trans hmul.symm
  exact (Nat.ModEq.cancel_left_of_coprime (Nat.Coprime.symm h) hmod).eq_of_lt_of_lt hv hlt

/-- MMUL of a Word below the modulus and its inverse gives 1. -/
theorem modMul_modInv (hm : 2 ≤ m.toNat) (h : Nat.gcd a.toNat m.toNat = 1) (ha : a.toNat < m.toNat) :
    modMul a (modInv a m) m = 1 := by
  apply BitVec.eq_of_toNat_eq
  rw [modMul_toNat ha]
  exact (modInv_of_coprime hm h).2

theorem modInv_ne_zero_iff (hm : 2 ≤ m.toNat) : modInv a m ≠ 0 ↔ Nat.gcd a.toNat m.toNat = 1 := by
  refine ⟨not_imp_comm.mp modInv_of_not_coprime, fun h h0 => ?_⟩
  have hpos := modInv_pos hm h
  simp [h0] at hpos

end InverseLaws

section GcdLaws
variable (a b : Word)

/-- The two operand orders run different loops; their results agree as numbers. -/
theorem gcdWord_comm : gcdWord a b = gcdWord b a := by
  apply BitVec.eq_of_toNat_eq
  rw [gcdWord_toNat, gcdWord_toNat, Nat.gcd_comm]

theorem gcdWord_eq_one_iff : gcdWord a b = 1 ↔ Nat.gcd a.toNat b.toNat = 1 := by
  rw [← BitVec.toNat_inj, gcdWord_toNat]
  rfl

end GcdLaws

/-- Settles O53: the inverse's value and bound from the loop's result, its uniqueness by cancelling a, and
the product as the multiplier computes it. -/
theorem modularInverseLaws : Obligations.ModularInverseLaws := by
  unfold Obligations.ModularInverseLaws
  intro a m hm
  refine ⟨fun h => ⟨?_, fun v _ hv hinv => ?_⟩, modInv_of_not_coprime, fun h _ ha => modMul_modInv hm h ha⟩
  · obtain ⟨hlt, hmul⟩ := modInv_of_coprime hm h
    exact ⟨modInv_pos hm h, by omega, hmul⟩
  · exact eq_modInv_of_mul_mod_eq_one hm h (by omega) hinv

/-- Settles O54: MINV's result is not 0, and GCD's is 1, exactly when the operands are coprime. -/
theorem gcdAndInverseAgree : Obligations.GcdAndInverseAgree := by
  unfold Obligations.GcdAndInverseAgree
  exact fun a b => ⟨gcdWord_toNat a b, gcdWord_comm a b,
    fun hb => (modInv_ne_zero_iff hb).trans (gcdWord_eq_one_iff a b).symm⟩

end Sys2Proof.Machine
end

section
/-! PROOFS. Exceptions (60_exceptions.md): which operands end a command in RANGE, dropped writes, the
accesses that draw a bus error, the interrupt, and O19, O21, O40, O55. -/

namespace Sys2Proof.Machine

section Range
variable {s : State} {i : Instr}

/-- A command that ends in RANGE under `p`, and completes normally otherwise, ends in RANGE exactly under
`p`: a completion reports ECODE 0 (10_state.md R37). -/
theorem endsInRange_iff {p : Prop} (hrange : p → exec i s = .next (s.raise .range))
    (hcomplete : ¬ p → ∃ u rd v, exec i s = .next (State.complete u rd v)) :
    p ↔ ∃ t, exec i s = .next t ∧ EndsInError s .range t := by
  refine ⟨fun hp => ⟨_, hrange hp, endsInError_raise s .range⟩, fun ⟨t, ht, hend⟩ => ?_⟩
  by_contra hp
  obtain ⟨u, rd, v, hu⟩ := hcomplete hp
  rw [hu] at ht
  cases ht
  exact absurd hend.ecode (by simp)

/-- The Miller-Rabin controller ends each of its CORE steps with a completion or a draw request, never with
an error (43_miller_rabin.md R156, R158). -/
theorem exec_mrt_cases {rd a b : RegNum} {t : State} (h : exec (.mrt rd a b) s = .next t) :
    (∃ u v, t = State.complete u rd v) ∨ ∃ u, t = State.requestDraw u := by
  simp only [exec, execMrt] at h
  split at h <;> cases h
  · unfold mrtStart
    split
    · exact .inl ⟨_, _, rfl⟩
    split
    · exact .inl ⟨_, _, rfl⟩
    split
    · exact .inl ⟨_, _, rfl⟩
    · exact .inr ⟨_, rfl⟩
  · unfold mrtRound
    split
    · split
      · exact .inl ⟨_, _, rfl⟩
      · exact .inr ⟨_, rfl⟩
    · exact .inl ⟨_, _, rfl⟩

/-- Operands that MADD and MSUB refuse fail the comparison of the datapath (40_modular_adder.md R111,
R113). -/
theorem not_operands_lt (h : s.work.opM.toNat ≤ s.work.opA.toNat ∨ s.work.opM.toNat ≤ s.work.opB.toNat) :
    ¬ (s.work.opA < s.work.opM ∧ s.work.opB < s.work.opM) := by
  simp only [word_lt_iff]
  omega

end Range

/-- Settles O40: each command's check is its row's condition, and a completion or a draw request is no
error. -/
theorem rangeErrorsExactly : Obligations.RangeErrorsExactly := by
  unfold Obligations.RangeErrorsExactly
  intro s rd a b m
  refine ⟨endsInRange_iff (fun h => if_neg (not_operands_lt h)) fun h => ?madd,
    endsInRange_iff (fun h => if_neg (not_operands_lt h)) fun h => ?msub,
    endsInRange_iff (fun h => if_pos h) fun h => ⟨_, _, _, if_neg h⟩,
    endsInRange_iff (fun h => ?mpowRange) fun h => ?mpow,
    endsInRange_iff (fun h => if_pos h) fun h => ⟨_, _, _, if_neg h⟩, ?mrt, ?gcd⟩
  case madd => exact ⟨_, _, _, execMadd_of_lt rd (by omega) (by omega)⟩
  case msub => exact ⟨_, _, _, execMsub_of_lt rd (by omega) (by omega)⟩
  case mpowRange =>
    by_cases hm : s.work.opM < 2
    · exact if_pos hm
    · obtain ⟨hb, ha⟩ := h.resolve_left hm
      exact (if_neg hm).trans (if_pos ⟨BitVec.toNat_ne.mpr hb, ha⟩)
  case mpow =>
    obtain ⟨hm, hab⟩ := not_or.mp h
    exact ⟨_, _, _, (if_neg hm).trans (if_neg fun ⟨hb, ha⟩ => hab ⟨BitVec.toNat_ne.mp hb, ha⟩)⟩
  case mrt =>
    rintro ⟨t, ht, hend⟩
    rcases exec_mrt_cases ht with ⟨u, v, rfl⟩ | ⟨u, rfl⟩
    · exact absurd hend.ecode (by simp)
    · exact absurd hend.phase (by simp)
  case gcd =>
    exact (endsInRange_iff (p := False) False.elim fun _ => ⟨_, _, _, rfl⟩).mpr

section BusErrors
variable {s : State} {ts : List Turn} {a : Access}

/-- CORE_BASE is a multiple of 4, so an address of the window is aligned as its offset is
(20_memory.md R64, R65). -/
theorem windowOffset_mod_four {off : Nat} (h : windowOffset a.addr = some off) : off % 4 = a.addr % 4 := by
  have hbase := coreBase_mod
  obtain ⟨haddr, -⟩ := eq_of_windowOffset h
  omega

/-- An access of another size, or misaligned, is a bus error (20_memory.md R64). -/
theorem step_busError {off : Nat} (hr : s.rst = false) (ht : s.turns = .host a :: ts)
    (hoff : windowOffset a.addr = some off) (hbad : a.size ≠ 4 ∨ off % 4 ≠ 0) :
    step s = .fault .busError := by
  simp only [step, takeTurn, ht, hostAccess, hoff, hr, Bool.false_eq_true, if_false, if_pos hbad]

/-- A legal access is served, whatever it does (20_memory.md R64). -/
theorem step_served {off : Nat} (hr : s.rst = false) (ht : s.turns = .host a :: ts)
    (hoff : windowOffset a.addr = some off) (hsize : a.size = 4) (h4 : off % 4 = 0) :
    ∃ t, step s = .next t := by
  obtain ⟨haddr, hlt⟩ := eq_of_windowOffset hoff
  obtain ⟨addr, size, op⟩ := a
  subst haddr hsize
  cases op with
  | read => exact ⟨_, step_read hr hlt h4 ht⟩
  | write v => exact ⟨_, step_write hr hlt h4 ht⟩

end BusErrors

/-- Settles O19: inside the window the offset is aligned as the address is. -/
theorem onlyAlignedWordAccessesAreServed : Obligations.OnlyAlignedWordAccessesAreServed := by
  unfold Obligations.OnlyAlignedWordAccessesAreServed
  intro s ts a hr ht hlo hhi
  have hoff : windowOffset a.addr = some (a.addr - Config.coreBase) := if_pos ⟨hlo, hhi⟩
  have h4 := windowOffset_mod_four hoff
  exact ⟨fun hsize hal => step_served hr ht hoff hsize (h4.trans hal),
    fun hbad => step_busError hr ht hoff (by rwa [h4])⟩

section DroppedWrites
variable {s : State} {off : Nat}

/-- A write at this offset is dropped in this state (10_state.md R39, R40, 43_miller_rabin.md R152):
`hostWrite_of_drops` and `hostWrite_sets_coll` tie it to the model. -/
def State.drops (s : State) (off : Nat) : Prop :=
  (off = 0x008 ∧ s.phase ≠ .idle) ∨ (off = 0x00C ∧ s.phase ≠ .waitRand) ∨
    (s.phase ≠ .idle ∧ ∃ i, off = regOffset i)

/-- Outside IDLE a write to x[i] is dropped (10_state.md R40). -/
theorem State.writeReg_of_ne_idle (hp : s.phase ≠ .idle) (i : RegNum) (v : Word) :
    s.writeReg i v = s.collide := by
  unfold State.writeReg
  split
  · contradiction
  all_goals rfl

/-- Every write that can be dropped is a legal access (20_memory.md R63, R64). -/
theorem State.drops_legal (h : s.drops off) : off < 256 ∧ off % 4 = 0 := by
  rcases h with ⟨rfl, -⟩ | ⟨rfl, -⟩ | ⟨-, i, rfl⟩
  · decide
  · decide
  · have hi := i.isLt
    simp only [regOffset]
    omega

/-- A dropped write is a collision and nothing else (60_exceptions.md R215). -/
theorem hostWrite_of_drops (h : s.drops off) (v : Word) :
    s.hostWrite v (target off) = { s.collide with resp := .written } := by
  rcases h with ⟨rfl, hp⟩ | ⟨rfl, hp⟩ | ⟨hp, i, rfl⟩
  · exact congrArg (fun u : State => { u with resp := .written }) (State.writeCmd_of_ne_idle hp)
  · exact congrArg (fun u : State => { u with resp := .written }) (State.writeRand_of_ne_waitRand hp)
  · rw [target_regOffset]
    exact congrArg (fun u : State => { u with resp := .written }) (State.writeReg_of_ne_idle hp i v)

/-- A host write that is not dropped sets no COLL (10_state.md R27). -/
theorem hostWrite_sets_coll (v : Word) (h4 : off % 4 = 0) (h : off < 256)
    (hc : (s.hostWrite v (target off)).coll = true) : s.coll = true ∨ s.drops off := by
  rcases hostWrite_cases s v h4 h with ⟨_, hw⟩ | ⟨_, hw⟩ | ⟨_, _, hw⟩ | ⟨_, _, hw⟩ | ⟨_, _, _, hw⟩ |
    ⟨_, hw⟩ | ⟨hdrop, _⟩
  case inl =>
    rw [hw] at hc
    exact .inl (Bool.and_eq_true_iff.mp ((s.writeCtrl_coll v).symm.trans hc)).1
  case inr.inl =>
    rw [hw] at hc
    exact .inl (Bool.and_eq_true_iff.mp ((s.ackStatus_coll v).symm.trans hc)).1
  case inr.inr.inl =>
    obtain ⟨k, -, hk⟩ := accept_eq s v
    rw [hw, hk] at hc
    exact .inl hc
  case inr.inr.inr.inr.inr.inr =>
    exact .inr (hdrop.imp_right (Or.imp_right fun ⟨i, ho, hp⟩ => ⟨hp, i, ho⟩))
  all_goals
    rw [hw] at hc
    exact .inl hc

/-- No command touches COLL when it runs (10_state.md R27). -/
theorem coreStep_coll {t : State} (h : coreStep s = .next t) : t.coll = s.coll := by
  rcases coreStep_cases h with ⟨_, rfl⟩ | ⟨_, _, i, _, hexec⟩ | ⟨_, _, _, rfl⟩
  · rfl
  · rcases exec_cases hexec with ⟨v, w, _, _, _, rfl⟩ | rfl | ⟨w, _, _, _, _, rfl⟩ <;> rfl
  · rfl

end DroppedWrites

/-- Settles O21: a dropped write is `collide`, and of all that a step can do only a dropped write sets
COLL. -/
theorem collisionIsNotAnError : Obligations.CollisionIsNotAnError := by
  unfold Obligations.CollisionIsNotAnError
  refine ⟨fun s ts off v hr ht hd => ?_, fun s t hs h0 h1 => ?_⟩
  · obtain ⟨hlt, h4⟩ := State.drops_legal hd
    rw [step_write hr hlt h4 ht, hostWrite_of_drops (s := { s with turns := ts }) hd]
    rfl
  · have hn : ∀ {u : State}, u.coll = s.coll → u.coll ≠ true := fun hu h => by simp [hu, h0] at h
    rcases step_cases hs with ⟨_, hcore⟩ | ⟨off, us, _, _, _, _, rfl⟩ |
      ⟨off, v, us, hu, _, hlt, h4, rfl⟩ | ⟨level, us, hu, rfl⟩
    · exact absurd h1 (hn (coreStep_coll (s := { s with turns := s.turns.tail }) hcore))
    · obtain ⟨v, n, hread⟩ := hostRead_eq { s with turns := us } (target off)
      rw [hread] at h1
      exact absurd h1 (hn rfl)
    · have hdrop := (hostWrite_sets_coll v h4 hlt h1).resolve_left (hn rfl)
      exact ⟨off, v, by rw [hu]; rfl, hdrop⟩
    · cases level
      · exact absurd h1 (hn rfl)
      · cases h1

section Interrupt
variable {s t : State}

/-- The level of irq (60_exceptions.md R220). -/
theorem State.irq_iff :
    s.irq = true ↔ (s.done = true ∧ s.ieDone = true) ∨ (s.phase = .waitRand ∧ s.ieRand = true) := by
  simp [State.irq, State.rneed]

/-- irq is off where neither source is up (60_exceptions.md R220). -/
theorem State.irq_of_idle (hd : s.done = false) (hp : s.phase = .idle) : s.irq = false := by
  simp [State.irq, State.rneed, hd, hp]

/-- A host write in the window that answers is the register's write (20_memory.md R66). -/
theorem eq_hostWrite_of_step {off : Nat} {v : Word} (hs : step s = .next t)
    (hh : s.turns.head? = some (.host (writeAt off v))) :
    ∃ us, t = State.hostWrite { s with turns := us } v (target off) := by
  rcases step_cases hs with ⟨hc, _⟩ | ⟨_, _, hu, _⟩ | ⟨_, _, us, hu, _, _, _, rfl⟩ | ⟨_, _, hu, _⟩
  · rcases hc with hc | hc <;> simp [hc] at hh
  · simp [hu, readAt, writeAt] at hh
  · simp only [hu, List.head?_cons, Option.some.injEq, Turn.host.injEq, writeAt, Access.mk.injEq,
      Nat.add_left_cancel_iff, BusOp.write.injEq, true_and] at hh
    obtain ⟨rfl, rfl⟩ := hh
    exact ⟨us, rfl⟩
  · simp [hu] at hh

/-- A CORE step never takes irq down: a command in execution keeps DONE or ends with DONE = 1
(10_state.md R37, 60_exceptions.md R214). -/
theorem coreStep_keeps_irq (h : coreStep s = .next t) (hi : s.irq = true) : t.irq = true := by
  rcases coreStep_cases h with ⟨_, rfl⟩ | ⟨_, hp, i, _, hexec⟩ | ⟨_, hp, _, rfl⟩
  · exact hi
  all_goals
    obtain ⟨hd, he⟩ := (State.irq_iff.mp hi).resolve_right (by simp [hp])
  · rcases exec_cases hexec with ⟨v, w, _, _, _, rfl⟩ | rfl | ⟨w, _, _, _, _, rfl⟩
    · exact State.irq_iff.mpr (.inl ⟨rfl, he⟩)
    · exact State.irq_iff.mpr (.inl ⟨rfl, he⟩)
    · exact State.irq_iff.mpr (.inl ⟨hd, he⟩)
  · exact State.irq_iff.mpr (.inl ⟨rfl, he⟩)

/-- A CTRL write that takes irq down is a soft reset or clears the enable of the source that is up
(60_exceptions.md R220). -/
theorem writeCtrl_clears_irq {v : Word} (hi : s.irq = true) (ho : (s.writeCtrl v).irq = false) :
    v.getLsbD 31 = true ∨ (s.ieDone = true ∧ v.getLsbD 0 = false) ∨
      (s.ieRand = true ∧ v.getLsbD 1 = false) := by
  rcases writeCtrl_cases s v with ⟨hv, _⟩ | ⟨_, hw⟩
  · exact .inl hv
  · rw [hw, ← Bool.not_eq_true, State.irq_iff] at ho
    obtain ⟨hnd, hnr⟩ := not_or.mp ho
    rcases State.irq_iff.mp hi with ⟨hd, he⟩ | ⟨hp, he⟩
    · exact .inr (.inl ⟨he, Bool.eq_false_iff.mpr fun hv => hnd ⟨hd, hv⟩⟩)
    · exact .inr (.inr ⟨he, Bool.eq_false_iff.mpr fun hv => hnr ⟨hp, hv⟩⟩)

/-- A STATUS write leaves DONE, or clears it by bit 1 (10_state.md R27). -/
theorem State.ackStatus_done (s : State) (v : Word) : (s.ackStatus v).done = (s.done && !v.getLsbD 1) := rfl

/-- A STATUS write that takes irq down writes 1 to DONE (60_exceptions.md R220). -/
theorem ackStatus_clears_irq {v : Word} (hi : s.irq = true) (ho : (s.ackStatus v).irq = false) :
    v.getLsbD 1 = true := by
  by_contra hv
  have hdone : (s.ackStatus v).done = s.done := by
    rw [State.ackStatus_done, Bool.eq_false_iff.mpr hv, Bool.not_false, Bool.and_true]
  have hsame : (s.ackStatus v).irq = s.irq := by
    rw [State.irq, hdone]
    rfl
  simp [hsame, hi] at ho

/-- The host writes that take irq down (60_exceptions.md R220): no write of x[i], no write to a reserved
offset, no dropped write. -/
theorem hostWrite_clears_irq {off : Nat} {v : Word} (h4 : off % 4 = 0) (h : off < 256)
    (hi : s.irq = true) (ho : (s.hostWrite v (target off)).irq = false) :
    (off = 0x004 ∧ v.getLsbD 1 = true) ∨ (off = 0x008 ∧ s.phase = .idle) ∨
      (off = 0x00C ∧ s.phase = .waitRand) ∨
      (off = 0x000 ∧ (v.getLsbD 31 = true ∨ (s.ieDone = true ∧ v.getLsbD 0 = false) ∨
        (s.ieRand = true ∧ v.getLsbD 1 = false))) := by
  rcases hostWrite_cases s v h4 h with ⟨hoff, hw⟩ | ⟨hoff, hw⟩ | ⟨hoff, hp, _⟩ | ⟨hoff, hp, _⟩ |
    ⟨_, _, _, hw⟩ | ⟨_, hw⟩ | ⟨_, hw⟩
  case inl =>
    rw [hw] at ho
    exact .inr (.inr (.inr ⟨hoff, writeCtrl_clears_irq hi ho⟩))
  case inr.inl =>
    rw [hw] at ho
    exact .inl ⟨hoff, ackStatus_clears_irq hi ho⟩
  case inr.inr.inl => exact .inr (.inl ⟨hoff, hp⟩)
  case inr.inr.inr.inl => exact .inr (.inr (.inl ⟨hoff, hp⟩))
  all_goals
    have hsame : (s.hostWrite v (target off)).irq = s.irq := by
      rw [hw]
      rfl
    simp [hsame, hi] at ho

/-- A CTRL write leaves the enables as written; as a soft reset it takes irq down
(10_state.md R26, 70_reset_and_hazards.md R242). -/
theorem writeCtrl_enables (s : State) (v : Word) :
    (s.writeCtrl v).ieDone = v.getLsbD 0 ∧ (s.writeCtrl v).ieRand = v.getLsbD 1 ∧
      (v.getLsbD 31 = true → (s.writeCtrl v).irq = false) := by
  refine ⟨rfl, rfl, fun hv => ?_⟩
  have hsoft : s.writeCtrl v = s.softReset.setEnables v := by simp [State.writeCtrl, hv]
  rw [hsoft]
  exact State.irq_of_idle rfl rfl

/-- In IDLE a word written to CMD is accepted (10_state.md R35). -/
theorem State.writeCmd_of_idle {w : Word} (hp : s.phase = .idle) : s.writeCmd w = s.accept w := by
  simp only [State.writeCmd, hp]

/-- After a RAND write no draw is awaited: the wait ends, or there was none (43_miller_rabin.md R151,
R152). -/
theorem State.rneed_writeRand (s : State) (v : Word) : (s.writeRand v).rneed = false := by
  by_cases hp : s.phase = .waitRand
  · rw [State.writeRand_of_waitRand hp]
    rfl
  · rw [State.writeRand_of_ne_waitRand hp]
    simp [State.rneed, hp]

/-- A step that takes irq down is a host write that does, or a hardware reset: no CORE step, no read and no
release of rst does (60_exceptions.md R220). -/
theorem step_clears_irq (hs : step s = .next t) (hi : s.irq = true) (ho : t.irq = false) :
    (∃ off v us, s.turns = .host (writeAt off v) :: us ∧ off < 256 ∧ off % 4 = 0 ∧
      (State.hostWrite { s with turns := us } v (target off)).irq = false) ∨
    s.turns.head? = some (.rst true) := by
  have hup : t.irq ≠ s.irq := by simp [hi, ho]
  rcases step_cases hs with ⟨_, hcore⟩ | ⟨off, us, _, _, _, _, rfl⟩ |
    ⟨off, v, us, hu, _, hlt, h4, rfl⟩ | ⟨level, us, hu, rfl⟩
  · exact absurd ((coreStep_keeps_irq (s := { s with turns := s.turns.tail }) hcore hi).trans hi.symm) hup
  · obtain ⟨v, n, hread⟩ := hostRead_eq { s with turns := us } (target off)
    rw [hread] at hup
    exact absurd rfl hup
  · exact .inl ⟨off, v, us, hu, hlt, h4, ho⟩
  · cases level
    · exact absurd rfl hup
    · exact .inr (by rw [hu]; rfl)

end Interrupt

/-- Settles O55: the level by definition, each write's effect by its register's lemma, and the converse by
`step_clears_irq` and `hostWrite_clears_irq`. -/
theorem interruptLevelAndClearing : Obligations.InterruptLevelAndClearing := by
  unfold Obligations.InterruptLevelAndClearing
  refine ⟨fun _ => State.irq_iff, fun s t v hs hh hv => ?status, fun s t w hs hh hp => ?cmd,
    fun s t r hs hh => ?rand, fun s t v hs hh => ?ctrl, fun s t hs hh => ?reset,
    fun s t hs hi ho => ?clears⟩
  case status =>
    obtain ⟨us, rfl⟩ := eq_hostWrite_of_step hs hh
    calc (State.ackStatus { s with turns := us } v).done
      _ = (s.done && !v.getLsbD 1) := State.ackStatus_done _ v
      _ = false := by rw [hv, Bool.not_true, Bool.and_false]
  case cmd =>
    obtain ⟨us, rfl⟩ := eq_hostWrite_of_step hs hh
    calc (State.writeCmd { s with turns := us } w).done
      _ = (State.accept { s with turns := us } w).done := congrArg State.done (State.writeCmd_of_idle hp)
      _ = false := State.accept_done _ w
  case rand =>
    obtain ⟨us, rfl⟩ := eq_hostWrite_of_step hs hh
    exact State.rneed_writeRand { s with turns := us } r
  case ctrl =>
    obtain ⟨us, rfl⟩ := eq_hostWrite_of_step hs hh
    exact writeCtrl_enables { s with turns := us } v
  case reset =>
    obtain ⟨us, hu⟩ := List.head?_eq_some_iff.mp hh
    rw [step_rst hu] at hs
    cases hs
    exact State.irq_of_idle rfl rfl
  case clears =>
    rcases step_clears_irq hs hi ho with ⟨off, v, us, hu, hlt, h4, hw⟩ | hrst
    · have hh : s.turns.head? = some (.host (writeAt off v)) := by rw [hu]; rfl
      rcases hostWrite_clears_irq (s := { s with turns := us }) h4 hlt hi hw with
        ⟨rfl, hv⟩ | ⟨rfl, hp⟩ | ⟨rfl, hp⟩ | ⟨rfl, hv⟩
      · exact .inl ⟨v, hh, hv⟩
      · exact .inr (.inl ⟨v, hh, hp⟩)
      · exact .inr (.inr (.inl ⟨v, hh, hp⟩))
      · exact .inr (.inr (.inr (.inl ⟨v, hh, hv⟩)))
    · exact .inr (.inr (.inr (.inr hrst)))

end Sys2Proof.Machine
end

section
/-! PROOFS. Command words (30_encoding.md): a word is its six fields, the match and mask table read field by
field, the assembler's checks; and O1, O2, O3, O4, O6. -/

namespace Sys2Proof.Machine

section Fields
variable {v w : Word}

/-- The six fields cover the word, so they determine it (30_encoding.md R90). -/
theorem word_eq_iff_fields :
    v = w ↔ rsvOf v = rsvOf w ∧ rmField v = rmField w ∧ rs2Field v = rs2Field w ∧
      rs1Field v = rs1Field w ∧ rdField v = rdField w ∧ opcOf v = opcOf w := by
  refine ⟨by rintro rfl; simp, fun ⟨hrsv, hrm, hrs2, hrs1, hrd, hopc⟩ => BitVec.eq_of_toNat_eq ?_⟩
  have hv := v.isLt
  have hw := w.isLt
  simp only [rsvOf, rmField, rs2Field, rs1Field, rdField, opcOf, regField, Fin.mk.injEq,
    ← BitVec.toNat_inj, BitVec.extractLsb'_toNat, Nat.shiftRight_eq_div_pow] at hrsv hrm hrs2 hrs1 hrd hopc
  omega

/-- RSV is 0 exactly when the word's number fits in 24 bits. -/
theorem rsvOf_eq_zero_iff : rsvOf w = 0 ↔ w.toNat / 2 ^ 24 = 0 := by
  have hw := w.isLt
  simp only [rsvOf, ← BitVec.toNat_inj, BitVec.extractLsb'_toNat, Nat.shiftRight_eq_div_pow, BitVec.ofNat_eq_ofNat,
    BitVec.toNat_ofNat]
  omega

theorem opcOf_eq_iff (b : BitVec 8) : opcOf w = b ↔ w.toNat % 2 ^ 8 = b.toNat := by
  simp only [opcOf, ← BitVec.toNat_inj, BitVec.extractLsb'_toNat, Nat.shiftRight_zero]

theorem rmField_eq_zero_iff : rmField w = 0 ↔ w.toNat / 2 ^ 20 % 2 ^ 4 = 0 := by
  simp only [rmField, regField, Fin.ext_iff, BitVec.extractLsb'_toNat, Nat.shiftRight_eq_div_pow, Fin.val_zero]

theorem rs2Field_eq_zero_iff : rs2Field w = 0 ↔ w.toNat / 2 ^ 16 % 2 ^ 4 = 0 := by
  simp only [rs2Field, regField, Fin.ext_iff, BitVec.extractLsb'_toNat, Nat.shiftRight_eq_div_pow, Fin.val_zero]

/-- Fields that fit make up the word that has them, where RSV is 0 (30_encoding.md R90, R93). -/
theorem formatC_eq_of_fields {opc : Nat} {rd rs1 rs2 rm : RegNum} (hlt : opc < 256) (hrsv : rsvOf w = 0)
    (hopc : opcOf w = BitVec.ofNat 8 opc) (hrd : rdField w = rd) (hrs1 : rs1Field w = rs1)
    (hrs2 : rs2Field w = rs2) (hrm : rmField w = rm) : formatC opc rd rs1 rs2 rm = w := by
  rw [word_eq_iff_fields, rsvOf_formatC hlt, rmField_formatC hlt, rs2Field_formatC hlt, rs1Field_formatC hlt,
    rdField_formatC hlt, opcOf_formatC_eq_ofNat hlt]
  exact ⟨hrsv.symm, hrm.symm, hrs2.symm, hrs1.symm, hrd.symm, hopc.symm⟩

/-- A word that decodes to a command is the command's word: the decoder reads every field, and those it
does not give to the command it has checked to be 0 (30_encoding.md R94, R98). -/
theorem encode_of_decode {i : Instr} (h : decode w = .command i) : encode i = w := by
  unfold decode at h
  by_cases hrsv : rsvOf w = 0
  · rw [if_neg (not_not.mpr hrsv)] at h
    split_ifs at h with h1 h2 h3 h4 h5 h5m h6 h6s h7 h7m <;> cases h
    · exact formatC_eq_of_fields (by decide) hrsv h1 rfl rfl rfl rfl
    · exact formatC_eq_of_fields (by decide) hrsv h2 rfl rfl rfl rfl
    · exact formatC_eq_of_fields (by decide) hrsv h3 rfl rfl rfl rfl
    · exact formatC_eq_of_fields (by decide) hrsv h4 rfl rfl rfl rfl
    · exact formatC_eq_of_fields (by decide) hrsv h5 rfl rfl rfl (not_not.mp h5m)
    · exact formatC_eq_of_fields (by decide) hrsv h6 rfl rfl (not_not.mp h6s) rfl
    · exact formatC_eq_of_fields (by decide) hrsv h7 rfl rfl rfl (not_not.mp h7m)
  · rw [if_pos hrsv] at h
    cases h

end Fields

/-- Settles O1: the decoder reads every field of a command word back. -/
theorem decodeOfEncode : Obligations.DecodeOfEncode := by
  unfold Obligations.DecodeOfEncode
  exact decode_encode

/-- Settles O2: a word with RSV = 0 is made up of the fields that the decoder has read. -/
theorem encodeOfDecode : Obligations.EncodeOfDecode := by
  unfold Obligations.EncodeOfDecode
  exact fun _ _ => encode_of_decode

section MatchAndMask
variable {w : Word}

theorem regField_and (lo : Nat) (v w : Word) : regField lo (v &&& w) = regField lo v &&& regField lo w := by
  have hlt := (v.extractLsb' lo 4 &&& w.extractLsb' lo 4).isLt
  apply Fin.ext
  calc (regField lo (v &&& w)).val
      = (v.extractLsb' lo 4).toNat &&& (w.extractLsb' lo 4).toNat := by
        simp only [regField, BitVec.extractLsb'_and, BitVec.toNat_and]
    _ = (regField lo v &&& regField lo w).val := (Nat.mod_eq_of_lt hlt).symm

/-- A row's comparison, field by field (30_encoding.md R97). -/
theorem covers_iff {row : OpcodeRow} : row.covers w = true ↔
    rsvOf w &&& rsvOf row.mask = rsvOf row.pattern ∧ rmField w &&& rmField row.mask = rmField row.pattern ∧
      rs2Field w &&& rs2Field row.mask = rs2Field row.pattern ∧
      rs1Field w &&& rs1Field row.mask = rs1Field row.pattern ∧
      rdField w &&& rdField row.mask = rdField row.pattern ∧ opcOf w &&& opcOf row.mask = opcOf row.pattern := by
  rw [OpcodeRow.covers, beq_iff_eq, word_eq_iff_fields]
  simp only [rsvOf, opcOf, rmField, rs2Field, rs1Field, rdField, BitVec.extractLsb'_and, regField_and]

theorem byte_and_ones (b : BitVec 8) : b &&& 0xFF = b := BitVec.and_allOnes

theorem regNum_and_ones : ∀ r : RegNum, r &&& 15 = r := by decide

theorem regNum_and_zero : ∀ r : RegNum, r &&& 0 = 0 := by decide

/-- Every row compares RSV with 0 and OPC with its opcode, and of RM and RS2 the one its command leaves
unused with 0 (30_encoding.md R93, R94, R97). -/
theorem covers_iff_of_mem {row : OpcodeRow} (h : row ∈ opcodeRows) : row.covers w = true ↔
    rsvOf w = 0 ∧ opcOf w = opcOf row.pattern ∧ rmField w &&& rmField row.mask = 0 ∧
      rs2Field w &&& rs2Field row.mask = 0 := by
  have hmask : ∀ r ∈ opcodeRows, rsvOf r.mask = 0xFF ∧ opcOf r.mask = 0xFF ∧ rs1Field r.mask = 0 ∧
      rdField r.mask = 0 := by decide
  have hpattern : ∀ r ∈ opcodeRows, rsvOf r.pattern = 0 ∧ rmField r.pattern = 0 ∧ rs2Field r.pattern = 0 ∧
      rs1Field r.pattern = 0 ∧ rdField r.pattern = 0 := by decide
  obtain ⟨m1, m2, m3, m4⟩ := hmask row h
  obtain ⟨p1, p2, p3, p4, p5⟩ := hpattern row h
  rw [covers_iff, m1, m2, m3, m4, p1, p2, p3, p4, p5]
  simp only [byte_and_ones, regNum_and_zero, true_and]
  tauto

theorem row_mem_opcodeRows (i : Instr) : i.row ∈ opcodeRows := by
  cases i <;> simp [Instr.row, opcodeRows]

/-- The three masks: of RM and RS2 a row compares the one that its command leaves unused, or none. -/
theorem mask_fields :
    (rmField 0xFF0000FF = 0 ∧ rs2Field 0xFF0000FF = 0) ∧ (rmField 0xFFF000FF = 15 ∧ rs2Field 0xFFF000FF = 0) ∧
      (rmField 0xFF0F00FF = 0 ∧ rs2Field 0xFF0F00FF = 15) := by decide

/-- A command's word has its row's opcode, and 0 in the field that the row compares with 0. -/
theorem row_covers_encode (i : Instr) : i.row.covers (encode i) = true := by
  rw [covers_iff_of_mem (row_mem_opcodeRows i)]
  cases i <;>
    simp only [encode, Instr.row, rsvOf_formatC, opcOf_formatC_eq_ofNat, rmField_formatC, rs2Field_formatC,
      Nat.reduceLT, mask_fields, regNum_and_zero, regNum_and_ones, true_and, and_true] <;>
    rfl

/-- A word that a row covers decodes to a command of the row: its fields pass the decoder's checks. -/
theorem decode_of_covers {row : OpcodeRow} (h : row ∈ opcodeRows) (hc : row.covers w = true) :
    ∃ i, decode w = .command i ∧ i.row = row := by
  obtain ⟨hrsv, hopc, hrm, hrs2⟩ := (covers_iff_of_mem h).mp hc
  have hunused : ∀ {r : RegNum}, r &&& 15 = 0 → r = 0 := fun {r} hr => (regNum_and_ones r).symm.trans hr
  simp only [opcodeRows, List.mem_cons, List.not_mem_nil, or_false] at h
  rcases h with rfl | rfl | rfl | rfl | rfl | rfl | rfl
  · replace hopc : opcOf w = 0x01 := hopc
    exact ⟨.madd .., by simp only [decode, hrsv, hopc]; rfl, rfl⟩
  · replace hopc : opcOf w = 0x02 := hopc
    exact ⟨.msub .., by simp only [decode, hrsv, hopc]; rfl, rfl⟩
  · replace hopc : opcOf w = 0x03 := hopc
    exact ⟨.mmul .., by simp only [decode, hrsv, hopc]; rfl, rfl⟩
  · replace hopc : opcOf w = 0x04 := hopc
    exact ⟨.mpow .., by simp only [decode, hrsv, hopc]; rfl, rfl⟩
  · replace hopc : opcOf w = 0x05 := hopc
    exact ⟨.mrt .., by simp only [decode, hrsv, hopc, hunused hrm]; rfl, rfl⟩
  · replace hopc : opcOf w = 0x06 := hopc
    exact ⟨.minv .., by simp only [decode, hrsv, hopc, hunused hrs2]; rfl, rfl⟩
  · replace hopc : opcOf w = 0x07 := hopc
    exact ⟨.gcd .., by simp only [decode, hrsv, hopc, hunused hrm]; rfl, rfl⟩

end MatchAndMask

/-- Settles O3: a row compares just the fields that the decoder checks (`covers_iff_of_mem`). -/
theorem decodeAgreesWithMatchAndMask : Obligations.DecodeAgreesWithMatchAndMask := by
  unfold Obligations.DecodeAgreesWithMatchAndMask
  refine fun w => ⟨fun i hi => ⟨row_mem_opcodeRows i, ?_⟩, fun row h hc => decode_of_covers h hc⟩
  rw [← encode_of_decode hi]
  exact row_covers_encode i

/-- Settles O4: each check of the decoder is a condition on the word's number, so each branch of the decoder
is linear arithmetic. -/
theorem illegalWordsExactly : Obligations.IllegalWordsExactly := by
  unfold Obligations.IllegalWordsExactly
  intro w
  simp only [decode, ne_eq, rsvOf_eq_zero_iff, rmField_eq_zero_iff, rs2Field_eq_zero_iff, opcOf_eq_iff]
  simp only [BitVec.ofNat_eq_ofNat, BitVec.toNat_ofNat]
  split_ifs <;>
    simp only [Decoded.illegal.injEq, exists_eq', exists_false, true_iff, false_iff] <;> omega

section Assembler

/-- The assembler's two checks, as what they refuse (30_encoding.md R99). -/
theorem assemble_eq_none_iff (c : SourceCommand) :
    assemble c = none ↔ c.operands.length ≠ c.mnemonic.arity ∨ ∃ n ∈ c.operands, 16 ≤ n := by
  have hwf : c.wf = true ↔ c.operands.length = c.mnemonic.arity ∧ ∀ n ∈ c.operands, n < 16 := by
    simp [SourceCommand.wf, SourceCommand.arityOk, SourceCommand.registersOk]
  simp only [assemble, ite_eq_right_iff, reduceCtorEq, imp_false, hwf, not_and_or, not_forall, not_lt,
    exists_prop, ne_eq]

/-- A well-formed source command is accepted and stands for its expansion (30_encoding.md R99). -/
theorem assemble_three (m : Mnemonic) (rd rs rm : RegNum) (h : m.arity = 3) :
    assemble ⟨m, [rd.val, rs.val, rm.val]⟩ = some (expand ⟨m, [rd.val, rs.val, rm.val]⟩) := by
  simp [assemble, SourceCommand.wf, SourceCommand.arityOk, SourceCommand.registersOk, h]

end Assembler

/-- Settles O6: the operands of a pseudo-instruction are registers already, so it is accepted, and its
expansion repeats the source register. -/
theorem pseudoInstructionsExpand : Obligations.PseudoInstructionsExpand := by
  unfold Obligations.PseudoInstructionsExpand
  refine ⟨fun rd rs rm => ?_, assemble_eq_none_iff⟩
  rw [assemble_three _ _ _ _ rfl, assemble_three _ _ _ _ rfl, assemble_three _ _ _ _ rfl]
  simp [expand, regAt]

end Sys2Proof.Machine
end

section
/-! PROOFS. What each command leaves (10_state.md R36 to R38): the frame, the results of the six commands that
are not MRT, acceptance, the illegal word; and O10, O25, O26, O27, O33 to O39, O49. -/

namespace Sys2Proof.Machine

/-- Settles O33: what a completion, an error and a draw request leave alone is in `exec_cases`. -/
theorem commandFrame : Obligations.CommandFrame := by
  unfold Obligations.CommandFrame
  intro i s t h
  rcases exec_cases h with ⟨v, w, hA, hB, hM, rfl⟩ | rfl | ⟨w, hA, hB, hM, _, rfl⟩
  · have hc := completes_of_work (s := s) (rdOf i) v hA hB hM
    refine ⟨hc.surroundings, fun r hr => ⟨hc.otherRegs r hr, hc.otherMarks r hr⟩, fun hd => ?_⟩
    simp at hd
  · have he := endsInError_raise s .range
    exact ⟨he.surroundings, fun r _ => ⟨he.regs r, he.marks r⟩, fun _ r => ⟨he.regs r, he.marks r⟩⟩
  · exact ⟨⟨rfl, rfl, rfl, rfl, hA, hB, hM, rfl, rfl, rfl, rfl⟩, fun _ _ => ⟨rfl, rfl⟩, fun _ _ => ⟨rfl, rfl⟩⟩

section Results
variable {s : State}

/-- A completion that leaves the hidden registers alone. -/
theorem completes_complete (s : State) (rd : RegNum) (v : Word) : Completes s rd v (s.complete rd v) :=
  completes_of_work (w := s.work) rd v rfl rfl rfl

/-- The value of a Word given by its number as an integer. -/
theorem word_eq_ofInt {v : Word} {n : Int} (h : (v.toNat : Int) = n) : v = BitVec.ofInt 32 n := by
  rw [← h, BitVec.ofInt_natCast]
  exact word_eq_ofNat rfl

/-- MMUL on admissible operands (41_modular_multiplier.md R131). -/
theorem execMmul_of_lt (rd : RegNum) (hm : 2 ≤ s.work.opM.toNat) (ha : s.work.opA.toNat < s.work.opM.toNat) :
    execMmul rd s = .next ((s.setMul (mulRun s.work.opA s.work.opB s.work.opM)).complete rd
      (modMul s.work.opA s.work.opB s.work.opM)) := by
  refine if_neg ?_
  rw [word_lt_iff, word_le_iff]
  exact not_or.mpr ⟨Nat.not_lt.mpr hm, Nat.not_le.mpr ha⟩

/-- MPOW on admissible operands (42_modular_exponentiation.md R141). -/
theorem execMpow_of_lt (rd : RegNum) (hm : 2 ≤ s.work.opM.toNat)
    (ha : s.work.opB.toNat = 0 ∨ s.work.opA.toNat < s.work.opM.toNat) :
    execMpow rd s = .next ((s.setPow (powRun s.work.opA s.work.opB s.work.opM s.work.mul)).complete rd
      (modPow s.work.opA s.work.opB s.work.opM)) := by
  refine (if_neg (Nat.not_lt.mpr hm)).trans (if_neg fun ⟨hb, hle⟩ => ?_)
  exact ha.elim (BitVec.toNat_ne.mp hb) (Nat.not_lt.mpr hle)

/-- The engine's result on all admissible operands: exponent 0 gives 1 for every base
(42_modular_exponentiation.md R140). -/
theorem modPow_eq_ofNat {b e m : Word} (hm : 2 ≤ m.toNat) (h : e.toNat = 0 ∨ b.toNat < m.toNat) :
    modPow b e m = BitVec.ofNat 32 (b.toNat ^ e.toNat % m.toNat) := by
  apply word_eq_ofNat
  rcases h with he | hb
  · have hzero : e = 0 := BitVec.eq_of_toNat_eq he
    rw [hzero, modPow_zero]
    exact (Nat.mod_eq_of_lt hm).symm
  · exact modPow_toNat hm hb

/-- MINV on an admissible modulus (44_extended_gcd.md R171). -/
theorem execMinv_of_two_le (rd : RegNum) (hm : 2 ≤ s.work.opM.toNat) :
    execMinv rd s = .next (State.complete
      { s with work := { s.work with inv := invRun s.work.opA s.work.opM } } rd
      (modInv s.work.opA s.work.opM)) :=
  if_neg (Nat.not_lt.mpr hm)

end Results

/-- Settles O34, by the adder's result as a number. -/
theorem maddResult : Obligations.MaddResult := by
  unfold Obligations.MaddResult
  intro s rd rs1 rs2 rm ha hb
  rw [← word_eq_ofNat (modAdd_toNat ha hb)]
  exact ⟨_, execMadd_of_lt rd ha hb, completes_complete s rd _⟩

/-- Settles O35, by the adder's result as an integer. -/
theorem msubResult : Obligations.MsubResult := by
  unfold Obligations.MsubResult
  intro s rd rs1 rs2 rm ha hb
  rw [← word_eq_ofInt (modSub_toInt ha hb)]
  exact ⟨_, execMsub_of_lt rd ha hb, completes_complete s rd _⟩

/-- Settles O36, by the multiplier's result as a number. -/
theorem mmulResult : Obligations.MmulResult := by
  unfold Obligations.MmulResult
  intro s rd rs1 rs2 rm hm ha
  rw [← word_eq_ofNat (modMul_toNat ha)]
  exact ⟨_, execMmul_of_lt rd hm ha, completes_of_work rd _ rfl rfl rfl⟩

/-- Settles O37, by the engine's result as a number. -/
theorem mpowResult : Obligations.MpowResult := by
  unfold Obligations.MpowResult
  intro s rd rs1 rs2 rm hm ha
  rw [← modPow_eq_ofNat hm ha]
  exact ⟨_, execMpow_of_lt rd hm ha, completes_of_work rd _ rfl rfl rfl⟩

/-- Settles O38, by the two cases of the inverse. -/
theorem minvResult : Obligations.MinvResult := by
  unfold Obligations.MinvResult
  intro s rd rs1 rm hm
  refine ⟨_, _, execMinv_of_two_le rd hm, completes_of_work rd _ rfl rfl rfl, fun hg => ?_,
    modInv_of_not_coprime⟩
  exact ⟨modInv_pos hm hg, modInv_of_coprime hm hg⟩

/-- Settles O39, by the Euclidean loop's result as a number. -/
theorem gcdResult : Obligations.GcdResult := by
  unfold Obligations.GcdResult
  intro s rd rs1 rs2
  rw [← word_eq_ofNat (gcdWord_toNat s.work.opA s.work.opB)]
  exact ⟨_, rfl, completes_of_work rd _ rfl rfl rfl⟩

/-- Settles O25: the CORE's turn out of reset and in EXEC is the command. -/
theorem stepRunsDecodedCommand : Obligations.StepRunsDecodedCommand := by
  unfold Obligations.StepRunsDecodedCommand
  intro s i hr hp hd ht
  rw [step_core ht, coreStep_command (s := { s with turns := s.turns.tail }) hr hp hd]

/-- Settles O27: what a command can do is in `exec_cases`, and only an MRT asks for a draw. -/
theorem commandsCompleteInOneStep : Obligations.CommandsCompleteInOneStep := by
  unfold Obligations.CommandsCompleteInOneStep
  intro s i hr hp hd hmrt ht
  obtain ⟨t, hexec⟩ := exec_answers_next i { s with turns := s.turns.tail }
  refine ⟨t, (stepRunsDecodedCommand s i hr hp hd ht).trans hexec, ?_⟩
  rcases exec_cases hexec with ⟨v, w, _, _, _, rfl⟩ | rfl | ⟨_, _, _, _, ⟨rd, a, b, hi⟩, _⟩
  · exact ⟨rfl, rfl, .inl ⟨rfl, rfl⟩⟩
  · exact ⟨rfl, rfl, .inr ⟨rfl, rfl⟩⟩
  · exact absurd hi (hmrt rd a b)

section IllegalWord
variable {s : State} {ts : List Turn}

/-- A read of CMD (10_state.md R29). -/
theorem step_cmd_read (hr : s.rst = false) (ht : s.turns = .host (readAt 0x008) :: ts) :
    step s = .next { s with resp := .read s.cmdLatch, turns := ts } :=
  step_read hr (by decide) (by decide) ht

/-- The CORE's turn on an illegal word (60_exceptions.md R214). -/
theorem step_core_illegal {why : IllegalReason} (hr : s.rst = false) (hp : s.phase = .exec)
    (hd : decode s.cmdLatch = .illegal why) (ht : s.turns = [] ∨ s.turns.head? = some .core) :
    step s = .next (State.raise { s with turns := s.turns.tail } .illegal) := by
  rw [step_core ht, coreStep_illegal (s := { s with turns := s.turns.tail }) hr hp hd]

end IllegalWord

/-- Settles O10: which operands are latched is `accept_of_command`, read for each command's own fields. -/
theorem commandWriteIsAccepted : Obligations.CommandWriteIsAccepted := by
  unfold Obligations.CommandWriteIsAccepted
  intro s ts w hr hp ht
  refine ⟨_, step_command_write hr hp ht, ?_⟩
  cases hd : decode w with
  | command i =>
    rw [State.accept_of_command hd]
    refine ⟨rfl, rfl, rfl, rfl, rfl, rfl, rfl, ?all, ?noRm, ?noRs2, ?none, rfl⟩
    case all => rintro rd a b m (h | h | h | h) <;> cases h <;> exact ⟨rfl, rfl, rfl⟩
    case noRm => rintro rd a b (h | h) <;> cases h <;> exact ⟨rfl, rfl, rfl⟩
    case noRs2 => rintro rd a m h; cases h; exact ⟨rfl, rfl, rfl⟩
    case none => intro why h; cases h
  | illegal why =>
    rw [State.accept_of_illegal hd]
    refine ⟨rfl, rfl, rfl, rfl, rfl, rfl, rfl, ?all, ?noRm, ?noRs2, fun _ _ => ⟨rfl, rfl, rfl⟩, rfl⟩
    case all => rintro rd a b m (h | h | h | h) <;> cases h
    case noRm => rintro rd a b (h | h) <;> cases h
    case noRs2 => intro rd a m h; cases h

/-- Settles O26: the error entry, the read of CMD, and the three steps one after the other. -/
theorem illegalCommandEndsInError : Obligations.IllegalCommandEndsInError := by
  unfold Obligations.IllegalCommandEndsInError
  refine ⟨fun s why hr hp hd ht => ⟨_, step_core_illegal hr hp hd ht, endsInError_raise _ _⟩,
    fun s ts => step_cmd_read, fun s ts w why hr hp hd ht => ?_⟩
  obtain ⟨t, hwrite, hlatch, -, -, -, -, hphase, heq, -⟩ := commandWriteIsAccepted s _ w hr hp ht
  have hrst : t.rst = false := (congrArg State.rst heq).trans hr
  have hturns : t.turns = .core :: .host (readAt 0x008) :: ts := congrArg State.turns heq
  have hraise := step_core_illegal hrst hphase (by rwa [hlatch]) (.inr (by rw [hturns]; rfl))
  rw [hturns, List.tail_cons] at hraise
  have hread := step_cmd_read (s := State.raise { t with turns := .host (readAt 0x008) :: ts } .illegal) hrst rfl
  rw [run_succ_of_step hwrite, run_succ_of_step hraise, run_succ_of_step hread]
  exact ⟨_, rfl, rfl, congrArg Response.read hlatch, rfl, rfl, rfl, rfl,
    fun r => ⟨State.reg_congr (congrArg State.x heq) r, State.marked_congr (congrArg State.written heq) r⟩⟩

/-- Settles O49: the command runs on the values that its own source fields latched, so each result is that of
O34 to O39. -/
theorem commandComputesFromItsRegisters : Obligations.CommandComputesFromItsRegisters := by
  unfold Obligations.CommandComputesFromItsRegisters
  intro s ts i hr hp ht
  obtain ⟨u, hexec⟩ := exec_answers_next i (s.issued i ts)
  have hrun := run_issued hr hp ht hexec
  have hturns : u.turns = ts := (commandFrame i _ u hexec).1.turns
  have hA := s.issued_opA i ts
  have hB := s.issued_opB i ts
  have hM := s.issued_opM i ts
  generalize s.issued i ts = c at hexec hA hB hM
  have hdone : ∀ {rd v}, (∃ t, exec i c = .next t ∧ Completes c rd v t) →
      u.done = true ∧ u.err = false ∧ u.reg rd = v := by
    rintro rd v ⟨t, ht, hc⟩
    rw [hexec] at ht
    cases ht
    exact ⟨hc.done, hc.err, hc.result⟩
  refine ⟨u, hrun, hturns, ?madd, ?msub, ?mmul, ?mpow, ?minv, ?gcd⟩
  case madd =>
    rintro rd a b m rfl
    have hres := maddResult c rd a b m
    rw [hA, hB, hM] at hres
    exact fun ha hb => hdone (hres ha hb)
  case msub =>
    rintro rd a b m rfl
    have hres := msubResult c rd a b m
    rw [hA, hB, hM] at hres
    exact fun ha hb => hdone (hres ha hb)
  case mmul =>
    rintro rd a b m rfl
    have hres := mmulResult c rd a b m
    rw [hA, hB, hM] at hres
    exact fun hm ha => hdone (hres hm ha)
  case mpow =>
    rintro rd a b m rfl
    have hres := mpowResult c rd a b m
    rw [hA, hB, hM] at hres
    exact fun hm ha => hdone (hres hm ha)
  case minv =>
    rintro rd a m rfl hm
    have hres := minvResult c rd a m
    rw [hA, hM] at hres
    obtain ⟨v, t, ht, hc, hinv, hnone⟩ := hres hm
    obtain ⟨hd, he, rfl⟩ := hdone ⟨t, ht, hc⟩
    exact ⟨hd, he, hinv, hnone⟩
  case gcd =>
    rintro rd a b rfl
    have hres := gcdResult c rd a b
    rw [hA, hB] at hres
    exact hdone hres

end Sys2Proof.Machine
end

section
/-! PROOFS. MRT (43_miller_rabin.md): its first CORE step, one round, and why primes and small draws pass;
O41, O42, O43, O45, O46. -/

namespace Sys2Proof.Machine

section FirstStep
variable {s : State} (rd rs1 rs2 : RegNum)

/-- With no draw in hand the CORE step is the first one (10_state.md R42). -/
theorem exec_mrt_of_no_draw (hd : s.work.mr.draw = none) :
    exec (.mrt rd rs1 rs2) s = .next (mrtStart rd s) := by
  simp only [exec, execMrt, hd]

/-- With a draw in hand the CORE step is its round (10_state.md R42). -/
theorem exec_mrt_of_draw {r : Word} (hd : s.work.mr.draw = some r) :
    exec (.mrt rd rs1 rs2) s = .next (mrtRound rd r s) := by
  simp only [exec, execMrt, hd]

theorem mrtStart_of_two (h : s.work.opA.toNat = 2) : mrtStart rd s = s.complete rd 1 :=
  if_pos (BitVec.eq_of_toNat_eq h)

/-- The two tests that MRT makes before it splits the candidate (43_miller_rabin.md R156). -/
theorem candidate_refused_iff (c : Word) :
    (c < 2 ∨ c.getLsbD 0 = false) ↔ c.toNat < 2 ∨ c.toNat % 2 = 0 := by
  rw [word_bit_zero, decide_eq_false_iff_not, ← Nat.mod_two_ne_one]
  rfl

theorem mrtStart_of_refused (h : s.work.opA.toNat < 2 ∨ (s.work.opA.toNat % 2 = 0 ∧ s.work.opA.toNat ≠ 2)) :
    mrtStart rd s = s.complete rd 0 := by
  have hne : s.work.opA ≠ 2 := BitVec.toNat_ne.mpr (by change s.work.opA.toNat ≠ 2; omega)
  exact (if_neg hne).trans (if_pos ((candidate_refused_iff _).mpr (by omega)))

section OddCandidate
variable (hodd : s.work.opA.toNat % 2 = 1) (hge : 3 ≤ s.work.opA.toNat)
include hodd hge

/-- An odd candidate from 3 on passes both tests. -/
theorem mrtStart_of_odd : mrtStart rd s =
    if s.work.opB = 0 then (s.splitCandidate 0).complete rd 1
    else (s.splitCandidate s.work.opB).requestDraw := by
  have hne : s.work.opA ≠ 2 := BitVec.toNat_ne.mpr (by change s.work.opA.toNat ≠ 2; omega)
  exact (if_neg hne).trans (if_neg (mt (candidate_refused_iff _).mp (by omega)))

/-- The controller's registers hold c - 1 = d * 2^s, d odd and s >= 1 (43_miller_rabin.md R156). -/
theorem splitCandidate_spec (rounds : Word) :
    (s.splitCandidate rounds).work.mr.d.toNat * 2 ^ (s.splitCandidate rounds).work.mr.twos =
        s.work.opA.toNat - 1 ∧
      (s.splitCandidate rounds).work.mr.d.toNat % 2 = 1 ∧
      1 ≤ (s.splitCandidate rounds).work.mr.twos := by
  have hone : (1 : Word) ≤ s.work.opA := by
    change 1 ≤ s.work.opA.toNat
    omega
  have hpred : (s.work.opA - 1).toNat = s.work.opA.toNat - 1 := BitVec.toNat_sub_of_le hone
  have hpos : 0 < (s.work.opA - 1).toNat := by omega
  obtain ⟨hsplit, hd⟩ := oddPart_spec hpos
  exact ⟨hsplit.trans hpred, hd, oddPart_twos_pos hpos (by omega)⟩

end OddCandidate

end FirstStep

/-- Settles O41, by the special cases of the first CORE step. -/
theorem mrtSpecialCases : Obligations.MrtSpecialCases := by
  unfold Obligations.MrtSpecialCases
  intro s rd rs1 rs2 hd
  rw [exec_mrt_of_no_draw rd rs1 rs2 hd]
  refine ⟨fun h => ⟨_, rfl, ?two⟩, fun h => ⟨_, rfl, ?refused⟩, fun hodd hge hk => ⟨_, rfl, ?noRounds⟩⟩
  case two =>
    rw [mrtStart_of_two rd h]
    exact completes_complete s rd 1
  case refused =>
    rw [mrtStart_of_refused rd h]
    exact completes_complete s rd 0
  case noRounds =>
    rw [mrtStart_of_odd rd hodd hge, if_pos (BitVec.eq_of_toNat_eq hk)]
    exact completes_of_work rd 1 rfl rfl rfl

/-- Settles O42: the candidate is split and the first draw is asked for. -/
theorem mrtFirstRequest : Obligations.MrtFirstRequest := by
  unfold Obligations.MrtFirstRequest
  intro s rd rs1 rs2 hd hodd hge hk
  obtain ⟨hsplit, hdOdd, htwos⟩ := splitCandidate_spec hodd hge s.work.opB
  have hrounds : s.work.opB ≠ 0 := BitVec.toNat_ne.mpr hk
  rw [exec_mrt_of_no_draw rd rs1 rs2 hd, mrtStart_of_odd rd hodd hge, if_neg hrounds]
  exact ⟨_, rfl, awaitsDraw_of_work rfl rfl rfl hd, hsplit, hdOdd, htwos, rfl⟩

section Round
variable {s : State} {r : Word}

/-- The round of a draw passes exactly when the draw's base is a strong liar (43_miller_rabin.md R154, R156). -/
theorem roundPasses_baseOf_iff (hge : 3 ≤ s.work.opA.toNat) (htwos : 1 ≤ s.work.mr.twos) :
    roundPasses s.work.opA s.work.mr.d s.work.mr.twos (baseOf s.work.opA r) = true ↔
      StrongLiar s.work.opA.toNat s.work.mr.d.toNat s.work.mr.twos (baseNat s.work.opA.toNat r.toNat) := by
  have hbase := baseOf_toNat r hge
  have hrange := (baseNat_range hge r.isLt).2
  rw [roundPasses_iff hge (by omega) htwos, hbase]

end Round

/-- Settles O43: the round's verdict is `roundPasses_baseOf_iff`, and the last round is told by its count. -/
theorem mrtRound_verdict : Obligations.MrtRound := by
  unfold Obligations.MrtRound
  intro s rd rs1 rs2 r hd hge htwos hleft
  rw [exec_mrt_of_draw rd rs1 rs2 hd, ← roundPasses_baseOf_iff hge htwos, mrtRound]
  have hlast : s.work.mr.left ≤ 1 ↔ s.work.mr.left.toNat ≤ 1 := Iff.rfl
  refine ⟨fun hp => ⟨_, rfl, ?reject⟩, fun hp h1 => ⟨_, rfl, ?accept⟩, fun hp h2 => ⟨_, rfl, ?goOn⟩⟩
  case reject =>
    rw [if_neg hp]
    exact completes_of_work rd 0 rfl rfl rfl
  case accept =>
    rw [if_pos hp, if_pos (hlast.mpr h1.le)]
    exact completes_of_work rd 1 rfl rfl rfl
  case goOn =>
    rw [if_pos hp, if_neg (mt hlast.mp (by omega))]
    exact ⟨awaitsDraw_of_work rfl rfl rfl rfl, rfl, rfl, BitVec.toNat_sub_of_le hleft⟩

section StrongLiars

/-- Where only 1 and -1 square to 1, repeated square roots of 1 are 1 until a -1 comes up. -/
theorem eq_one_or_exists_pow_eq_neg_one {R : Type} [Ring R] [NoZeroDivisors R] {x : R} :
    ∀ {e : Nat}, x ^ 2 ^ e = 1 → x = 1 ∨ ∃ j, j < e ∧ x ^ 2 ^ j = -1
  | 0, h => .inl (by simpa using h)
  | e + 1, h => by
    rw [pow_succ, pow_mul, pow_two, mul_self_eq_one_iff] at h
    rcases h with h | h
    · exact (eq_one_or_exists_pow_eq_neg_one h).imp_right fun ⟨j, hj, hx⟩ => ⟨j, by omega, hx⟩
    · exact .inr ⟨e, by omega, h⟩

/-- Every base below a prime is a strong liar for it (43_miller_rabin.md R159 (a)): by Fermat's little theorem
a^(c-1) is 1 modulo c, and modulo a prime only 1 and -1 square to 1. -/
theorem strongLiar_of_prime {c d e a : Nat} (hc : c.Prime) (hge : 3 ≤ c) (hsplit : d * 2 ^ e = c - 1)
    (ha : 1 ≤ a) (hac : a < c) : StrongLiar c d e a := by
  have := Fact.mk hc
  have hne : (a : ZMod c) ≠ 0 := by
    rw [Ne, ZMod.natCast_eq_zero_iff]
    exact Nat.not_dvd_of_pos_of_lt ha hac
  have hfermat : ((a : ZMod c) ^ d) ^ 2 ^ e = 1 := by
    rw [← pow_mul, hsplit, ZMod.pow_card_sub_one_eq_one hne]
  have hval : ∀ k v : Nat, v < c → ((a : ZMod c) ^ k = v) → a ^ k % c = v := by
    intro k v hv h
    have hmod : a ^ k ≡ v [MOD c] := (ZMod.natCast_eq_natCast_iff _ _ _).mp (by exact_mod_cast h)
    exact Eq.trans hmod (Nat.mod_eq_of_lt hv)
  rcases eq_one_or_exists_pow_eq_neg_one hfermat with h | ⟨j, hj, h⟩
  · exact .inl (hval d 1 (by omega) (by simpa using h))
  · refine .inr ⟨j, hj, hval _ (c - 1) (by omega) ?_⟩
    rw [pow_mul, h, Nat.cast_sub (by omega)]
    simp

/-- 1 is a strong liar for every candidate (43_miller_rabin.md R159 (c)). -/
theorem strongLiar_one {c d e : Nat} (hge : 3 ≤ c) : StrongLiar c d e 1 :=
  .inl (by rw [one_pow, Nat.mod_eq_of_lt (by omega)])

/-- A small draw stands for base 1 (43_miller_rabin.md R159 (c)). -/
theorem baseNat_of_small {c r : Nat} (h : r * (c - 2) < 2 ^ 32) : baseNat c r = 1 := by
  rw [baseNat, Nat.div_eq_of_lt h]

end StrongLiars

/-- Settles O45: every base is a strong liar for a prime. -/
theorem primePassesEveryRound : Obligations.PrimePassesEveryRound := by
  unfold Obligations.PrimePassesEveryRound
  intro s rd rs1 rs2 r hd hok hprime
  obtain ⟨hlow, hhigh⟩ := baseNat_range hok.ge r.isLt
  have hge := hok.ge
  have hliar := strongLiar_of_prime hprime hge hok.split hlow (by omega)
  obtain ⟨-, hlast, hnext⟩ := mrtRound_verdict s rd rs1 rs2 r hd hge hok.twosPos hok.leftPos
  refine ⟨hlast hliar, fun h2 => ?_⟩
  obtain ⟨t, ht, hawaits, -⟩ := hnext hliar h2
  exact ⟨t, ht, hawaits⟩

/-- Settles O46: a small draw stands for base 1, which is a strong liar. -/
theorem smallDrawsNeverReject : Obligations.SmallDrawsNeverReject := by
  unfold Obligations.SmallDrawsNeverReject
  intro s t rd rs1 rs2 r hd hok hsmall hexec
  obtain ⟨-, hlast, hnext⟩ := mrtRound_verdict s rd rs1 rs2 r hd hok.ge hok.twosPos hok.leftPos
  rw [baseNat_of_small hsmall] at hlast hnext
  have hliar := strongLiar_one (d := s.work.mr.d.toNat) (e := s.work.mr.twos) hok.ge
  rcases Nat.eq_or_lt_of_le hok.leftPos with h1 | h2
  · obtain ⟨u, hu, hc⟩ := hlast hliar h1.symm
    rw [hexec] at hu
    cases hu
    exact .inl hc
  · obtain ⟨u, hu, hawaits, -⟩ := hnext hliar h2
    rw [hexec] at hu
    cases hu
    exact .inr hawaits

end Sys2Proof.Machine
end

section
/-! PROOFS. A whole MRT, draw by draw (43_miller_rabin.md R156, R157), by induction over the draws that pass;
O47, O48. -/

namespace Sys2Proof.Machine

/-- The state in which the CORE runs the round of a draw that the host has just written, with `ts` still to
come (43_miller_rabin.md R151): `run_draw` ties it to the model. -/
def State.drawn (s : State) (r : Word) (ts : List Turn) : State :=
  { s.giveDraw r with resp := .written, turns := ts }

/-- The test of candidate c waits for a draw in s: c - 1 = d * 2^e with d odd, and k rounds to go
(43_miller_rabin.md R156). -/
structure State.AwaitsRound (s : State) (rd : RegNum) (c d e k : Nat) : Prop where
  rst : s.rst = false
  phase : s.phase = .waitRand
  command : ∃ a b, decode s.cmdLatch = .command (.mrt rd a b)
  candidate : s.work.opA.toNat = c
  ge : 3 ≤ c
  d : s.work.mr.d.toNat = d
  twos : s.work.mr.twos = e
  twosPos : 1 ≤ e
  left : s.work.mr.left.toNat = k

/-- t shows what s shows in its registers and COLL. -/
def SameRegisters (s t : State) : Prop := t.coll = s.coll ∧ ∀ q, t.reg q = s.reg q

/-- t reports the end of the test that ran in s, with verdict v in x[rd], and all turns taken
(10_state.md R37). -/
def TestEnds (s : State) (rd : RegNum) (v : Word) (t : State) : Prop :=
  t.phase = .idle ∧ t.done = true ∧ t.err = false ∧ t.ecode = .none ∧ t.turns = [] ∧
    t.coll = s.coll ∧ t.reg rd = v ∧ ∀ q, q ≠ rd → t.reg q = s.reg q

theorem SameRegisters.testEnds {s t u : State} {rd : RegNum} {v : Word} (h : SameRegisters s t)
    (hu : TestEnds t rd v u) : TestEnds s rd v u := by
  obtain ⟨hp, hd, he, hcode, hts, hcoll, hv, hregs⟩ := hu
  exact ⟨hp, hd, he, hcode, hts, hcoll.trans h.1, hv, fun q hq => (hregs q hq).trans (h.2 q)⟩

theorem SameRegisters.trans {s t u : State} (h : SameRegisters s t) (hu : SameRegisters t u) :
    SameRegisters s u :=
  ⟨hu.1.trans h.1, fun q => (hu.2 q).trans (h.2 q)⟩

theorem AwaitsDraw.sameRegisters {s t : State} (h : AwaitsDraw s t) : SameRegisters s t :=
  ⟨h.surroundings.coll, h.regs⟩

theorem Completes.testEnds {s t : State} {rd : RegNum} {v : Word} (h : Completes s rd v t)
    (hts : s.turns = []) : TestEnds s rd v t :=
  ⟨h.phase, h.done, h.err, h.ecode, h.surroundings.turns.trans hts, h.surroundings.coll, h.result,
    h.otherRegs⟩

section OneDraw
variable {s : State} {rd : RegNum} {c d e k : Nat} {r : Word} {ts : List Turn}

theorem sameRegisters_drawn (s : State) (r : Word) (ts : List Turn) : SameRegisters s (s.drawn r ts) :=
  ⟨rfl, fun _ => rfl⟩

/-- The RAND write that answers a request, and the CORE step after it (43_miller_rabin.md R151,
10_state.md R42). -/
theorem run_draw {i : Instr} {t : State} (hr : s.rst = false) (hp : s.phase = .waitRand)
    (hd : decode s.cmdLatch = .command i)
    (ht : s.turns = .host (writeAt 0x00C r) :: .core :: ts) (hexec : exec i (s.drawn r ts) = .next t) :
    Host.Core.run Sys2Proof.core 2 s = .next t := by
  have hwrite : step s = .next (s.drawn r (.core :: ts)) := by
    rw [step_rand_write hr ht, State.writeRand_of_waitRand (s := { s with turns := .core :: ts }) hp]
    rfl
  have hcore : step (s.drawn r (.core :: ts)) = .next t :=
    (stepRunsDecodedCommand (s.drawn r (.core :: ts)) i hr rfl hd (.inr rfl)).trans hexec
  rw [run_succ_of_step hwrite, run_succ_of_step hcore]
  rfl

/-- A draw that passes, with more rounds to go, leads to the next request (43_miller_rabin.md R156). -/
theorem run_passing_draw (h : s.AwaitsRound rd c d e (k + 1)) (hk : 1 ≤ k)
    (ht : s.turns = .host (writeAt 0x00C r) :: .core :: ts) (hliar : StrongLiar c d e (baseNat c r.toNat)) :
    ∃ t, Host.Core.run Sys2Proof.core 2 s = .next t ∧ t.AwaitsRound rd c d e k ∧ t.turns = ts ∧
      SameRegisters s t := by
  obtain ⟨hr, hp, ⟨a, b, hdec⟩, rfl, hge, rfl, rfl, htwos, hleft⟩ := h
  obtain ⟨t, hexec, hawaits, hdKept, hsKept, hleftKept⟩ :=
    (mrtRound_verdict (s.drawn r ts) rd a b r rfl hge htwos (hleft ▸ Nat.le_add_left 1 k)).2.2 hliar
      (by change 2 ≤ s.work.mr.left.toNat; omega)
  refine ⟨t, run_draw hr hp hdec ht hexec, ?_, hawaits.surroundings.turns,
    (sameRegisters_drawn s r ts).trans hawaits.sameRegisters⟩
  exact {
    rst := hawaits.surroundings.rst.trans hr
    phase := hawaits.phase
    command := ⟨a, b, by rw [hawaits.surroundings.cmdLatch]; exact hdec⟩
    candidate := congrArg BitVec.toNat hawaits.surroundings.opA
    ge := hge
    d := congrArg BitVec.toNat hdKept
    twos := hsKept
    twosPos := htwos
    left := hleftKept.trans (by change s.work.mr.left.toNat - 1 = k; omega) }

/-- The verdict of a draw that ends the test: 1 where it passes the last round, 0 where it rejects
(43_miller_rabin.md R156). -/
def EndsWith (c d e k : Nat) (r v : Word) : Prop :=
  (StrongLiar c d e (baseNat c r.toNat) ∧ k = 1 ∧ v = 1) ∨
    (¬ StrongLiar c d e (baseNat c r.toNat) ∧ 1 ≤ k ∧ v = 0)

/-- A draw that ends the test, by passing the last round or by rejecting (43_miller_rabin.md R156). -/
theorem run_last_draw {v : Word} (h : s.AwaitsRound rd c d e k)
    (ht : s.turns = [.host (writeAt 0x00C r), .core]) (hv : EndsWith c d e k r v) :
    ∃ t, Host.Core.run Sys2Proof.core 2 s = .next t ∧ TestEnds s rd v t := by
  obtain ⟨hr, hp, ⟨a, b, hdec⟩, rfl, hge, rfl, rfl, htwos, rfl⟩ := h
  obtain ⟨t, hexec, hc⟩ : ∃ t, exec (.mrt rd a b) (s.drawn r []) = .next t ∧
      Completes (s.drawn r []) rd v t := by
    rcases hv with ⟨hliar, hleft, rfl⟩ | ⟨hnot, hleft, rfl⟩
    · exact (mrtRound_verdict (s.drawn r []) rd a b r rfl hge htwos hleft.ge).2.1 hliar hleft
    · exact (mrtRound_verdict (s.drawn r []) rd a b r rfl hge htwos hleft).1 hnot
  exact ⟨t, run_draw hr hp hdec ht hexec, (sameRegisters_drawn s r []).testEnds (hc.testEnds rfl)⟩

end OneDraw

/-- The host's turns for a list of draws: a RAND write and the CORE step after it for each. -/
def drawTurns (draws : List Word) : List Turn :=
  draws.flatMap fun r => [.host (writeAt 0x00C r), .core]

/-- From a request on, draws that pass and then one that ends the test (43_miller_rabin.md R156). -/
theorem run_draws {rd : RegNum} {c d e : Nat} {last v : Word} :
    ∀ (passing : List Word) (k : Nat) (s : State), s.AwaitsRound rd c d e (k + passing.length) →
      (∀ r ∈ passing, StrongLiar c d e (baseNat c r.toNat)) → EndsWith c d e k last v →
      s.turns = drawTurns (passing ++ [last]) →
      ∃ t, Host.Core.run Sys2Proof.core (2 * (passing.length + 1)) s = .next t ∧ TestEnds s rd v t
  | [], k, s, h, _, hv, ht => run_last_draw h ht hv
  | r :: rs, k, s, h, hpass, hv, ht => by
    have hk : 1 ≤ k := hv.elim (fun hv => hv.2.1.ge) (fun hv => hv.2.1)
    obtain ⟨hr, hrs⟩ := List.forall_mem_cons.mp hpass
    obtain ⟨t, hrun, hnext, hts, hsame⟩ := run_passing_draw (k := k + rs.length) h (by omega) ht hr
    obtain ⟨u, hrest, hend⟩ := run_draws rs k t hnext hrs hv hts
    refine ⟨u, ?_, hsame.testEnds hend⟩
    rw [List.length_cons, Nat.mul_succ, Nat.add_comm, run_add_of_run 2 _ s hrun]
    exact hrest

/-- d * 2^e determines e where d is odd: half of the comparison. -/
theorem twos_le_of_split_eq {d d' e e' : Nat} (hd' : d' % 2 = 1) (h : d * 2 ^ e = d' * 2 ^ e') : e ≤ e' := by
  have hcop : Nat.Coprime (2 ^ e) d' := (Nat.coprime_two_left.mpr (Nat.odd_iff.mpr hd')).pow_left e
  have hdvd : 2 ^ e ∣ 2 ^ e' := hcop.dvd_of_dvd_mul_left (h ▸ Nat.dvd_mul_left _ d)
  exact (Nat.pow_dvd_pow_iff_le_right (by norm_num)).mp hdvd

/-- A number is d * 2^e with d odd in one way only (43_miller_rabin.md R156). -/
theorem split_unique {d d' e e' : Nat} (hd : d % 2 = 1) (hd' : d' % 2 = 1) (h : d * 2 ^ e = d' * 2 ^ e') :
    d = d' ∧ e = e' := by
  have he : e = e' := le_antisymm (twos_le_of_split_eq hd' h) (twos_le_of_split_eq hd h.symm)
  subst he
  exact ⟨Nat.eq_of_mul_eq_mul_right (by positivity) h, rfl⟩

/-- A whole test, from its acceptance to its end: the first CORE step asks for a draw, then `run_draws`. -/
theorem run_test {s : State} {rd a b : RegNum} {passing : List Word} {last v : Word} {d e k : Nat}
    (hr : s.rst = false) (hp : s.phase = .exec) (hdraw : s.work.mr.draw = none)
    (hdec : decode s.cmdLatch = .command (.mrt rd a b)) (hodd : s.work.opA.toNat % 2 = 1)
    (hge : 3 ≤ s.work.opA.toNat) (hk : s.work.opB.toNat = k + passing.length) (hd : d % 2 = 1)
    (hsplit : d * 2 ^ e = s.work.opA.toNat - 1)
    (hpass : ∀ r ∈ passing, StrongLiar s.work.opA.toNat d e (baseNat s.work.opA.toNat r.toNat))
    (hv : EndsWith s.work.opA.toNat d e k last v) (ht : s.turns = mrtTurns (passing ++ [last])) :
    ∃ t, Host.Core.run Sys2Proof.core (1 + 2 * (passing.length + 1)) s = .next t ∧ TestEnds s rd v t := by
  have hk1 : 1 ≤ k := hv.elim (fun hv => hv.2.1.ge) (fun hv => hv.2.1)
  obtain ⟨t, hexec, hawaits, hsplit', hd', htwos, hleft⟩ :=
    mrtFirstRequest { s with turns := s.turns.tail } rd a b hdraw hodd hge (by change s.work.opB.toNat ≠ 0; omega)
  obtain ⟨hdEq, heEq⟩ := split_unique hd' hd (hsplit'.trans hsplit.symm)
  have hfirst : step s = .next t :=
    (stepRunsDecodedCommand s _ hr hp hdec (.inr (by rw [ht]; rfl))).trans hexec
  have hround : t.AwaitsRound rd s.work.opA.toNat d e (k + passing.length) := {
    rst := hawaits.surroundings.rst.trans hr
    phase := hawaits.phase
    command := ⟨a, b, by rw [hawaits.surroundings.cmdLatch]; exact hdec⟩
    candidate := congrArg BitVec.toNat hawaits.surroundings.opA
    ge := hge
    d := hdEq
    twos := heEq
    twosPos := heEq ▸ htwos
    left := (congrArg BitVec.toNat hleft).trans hk }
  have hturns : t.turns = drawTurns (passing ++ [last]) :=
    hawaits.surroundings.turns.trans (congrArg List.tail ht)
  obtain ⟨u, hrun, hend⟩ := run_draws passing k t hround hpass hv hturns
  refine ⟨u, ?_, SameRegisters.testEnds (s := s) hawaits.sameRegisters hend⟩
  rw [Nat.add_comm, run_succ_of_step hfirst]
  exact hrun

/-- Settles O47: the last of the draws passes the last round. -/
theorem mrtRunPasses : Obligations.MrtRunPasses := by
  unfold Obligations.MrtRunPasses
  intro s rd rs1 rs2 draws d e hr hp hdraw hdec hodd hge hne hlen hd hsplit hpass ht
  obtain ⟨passing, last, rfl⟩ : ∃ passing last, draws = passing ++ [last] :=
    ⟨_, _, (List.dropLast_concat_getLast hne).symm⟩
  obtain ⟨hinit, hlast⟩ := List.forall_mem_append.mp hpass
  rw [List.length_append] at hlen ⊢
  exact run_test hr hp hdraw hdec hodd hge (by rw [← hlen, Nat.add_comm]; rfl) hd hsplit hinit
    (.inl ⟨hlast last (List.mem_singleton_self last), rfl, rfl⟩) ht

/-- Settles O48: the last of the draws rejects. -/
theorem mrtRunRejects : Obligations.MrtRunRejects := by
  unfold Obligations.MrtRunRejects
  intro s rd rs1 rs2 passing last d e hr hp hdraw hdec hodd hge hlen hd hsplit hpass hnot ht
  obtain ⟨k, hk⟩ : ∃ k, s.work.opB.toNat = k + passing.length :=
    ⟨_, (Nat.sub_add_cancel hlen.le).symm⟩
  exact run_test hr hp hdraw hdec hodd hge hk hd hsplit hpass (.inr ⟨hnot, by omega, rfl⟩) ht

end Sys2Proof.Machine
end

section
/-! PROOFS. The invariant (10_state.md R27): where it holds for a simple reason, that a draw request of MRT has
set the controller's registers, and that every step keeps it; O56, O58, O59. -/

namespace Sys2Proof.Machine

section Invariant
variable {s t : State}

/-- In IDLE the invariant is about the error report only. -/
theorem State.inv_of_idle (hp : s.phase = .idle) (he : s.err = true ↔ s.ecode ≠ .none) : s.Inv where
  busyNotDone h := by simp [State.busy, hp] at h
  busyNoError h := by simp [State.busy, hp] at h
  rneedBusy h := by simp [State.rneed, hp] at h
  errEcode := he
  resetIdle _ := hp
  noDrawWaiting h := by simp [hp] at h
  test h := by simp [State.mrRunning, hp] at h

/-- The invariant of a state in which a command is in execution and no error is reported. -/
theorem State.inv_of_busy (hd : s.done = false) (he : s.err = false) (hc : s.ecode = .none)
    (hr : s.rst = false) (hw : s.phase = .waitRand → s.work.mr.draw = none)
    (ht : s.mrRunning → s.MrOk) : s.Inv where
  busyNotDone _ := hd
  busyNoError _ := he
  rneedBusy h := by
    have hp : s.phase = .waitRand := by simpa [State.rneed] using h
    simp [State.busy, hp]
  errEcode := by simp [he, hc]
  resetIdle h := by simp [hr] at h
  noDrawWaiting := hw
  test := ht

/-- The registers, CTRL, COLL, the bus and the turns play no part in the invariant; DONE and rst may fall. -/
theorem State.Inv.of_visible_change (h : s.Inv) (x : Vector Word 16) (written : Vector Bool 16)
    (ieDone ieRand coll : Bool) (resp : Response) (freeCtr : Nat) (turns : List Turn) {done rst : Bool}
    (hdone : s.done = false → done = false) (hrst : rst = true → s.rst = true) :
    State.Inv { s with
      x := x, written := written, ieDone := ieDone, ieRand := ieRand, done := done, coll := coll, rst := rst
      resp := resp, freeCtr := freeCtr, turns := turns } where
  busyNotDone hb := hdone (h.busyNotDone hb)
  busyNoError := h.busyNoError
  rneedBusy := h.rneedBusy
  errEcode := h.errEcode
  resetIdle hr := h.resetIdle (hrst hr)
  noDrawWaiting := h.noDrawWaiting
  test hrun :=
    have hok := h.test hrun
    ⟨hok.command, hok.odd, hok.ge, hok.split, hok.oddPart, hok.twosPos, hok.leftPos, hok.leftLe⟩

/-- A state of the invariant with only its turns changed. -/
theorem State.Inv.of_turns (h : s.Inv) (ts : List Turn) : State.Inv { s with turns := ts } :=
  h.of_visible_change _ _ _ _ _ _ _ ts id id

/-- A command in execution reports neither DONE nor an error (10_state.md R27, R35). -/
theorem State.Inv.report_of_busy (h : s.Inv) (hp : s.phase ≠ .idle) :
    s.done = false ∧ s.err = false ∧ s.ecode = .none := by
  have hb : s.busy = true := by simp [State.busy, hp]
  have he := h.busyNoError hb
  refine ⟨h.busyNotDone hb, he, ?_⟩
  by_contra hc
  simp [h.errEcode.mpr hc] at he

end Invariant

section Test
variable {s t : State} {rd a b : RegNum}

/-- A request keeps the word and the operands, so what a running test holds is about the controller's
registers. -/
theorem AwaitsDraw.mrOk (h : AwaitsDraw s t) (hdec : decode s.cmdLatch = .command (.mrt rd a b))
    (hodd : s.work.opA.toNat % 2 = 1) (hge : 3 ≤ s.work.opA.toNat)
    (hsplit : t.work.mr.d.toNat * 2 ^ t.work.mr.twos = s.work.opA.toNat - 1)
    (hd : t.work.mr.d.toNat % 2 = 1) (htwos : 1 ≤ t.work.mr.twos) (hleft : 1 ≤ t.work.mr.left.toNat)
    (hle : t.work.mr.left.toNat ≤ s.work.opB.toNat) : t.MrOk := by
  obtain ⟨hlatch, hA, hB⟩ : t.cmdLatch = s.cmdLatch ∧ t.work.opA = s.work.opA ∧ t.work.opB = s.work.opB :=
    ⟨h.surroundings.cmdLatch, h.surroundings.opA, h.surroundings.opB⟩
  rw [← hlatch] at hdec
  rw [← hA] at hodd hge hsplit
  rw [← hB] at hle
  exact ⟨⟨rd, a, b, hdec⟩, hodd, hge, hsplit, hd, htwos, hleft, hle⟩

/-- A CORE step of MRT that asks for a draw has split an odd candidate, or has kept the split of a test under
way with one round less to go (43_miller_rabin.md R156). -/
theorem mrOk_of_exec_mrt (hdec : decode s.cmdLatch = .command (.mrt rd a b)) (hrun : s.mrRunning → s.MrOk)
    (hp : s.phase = .exec) (hexec : exec (.mrt rd a b) s = .next t) (hw : t.phase = .waitRand) :
    AwaitsDraw s t ∧ t.MrOk := by
  have hnot : ∀ {v}, ¬ ∃ u, exec (.mrt rd a b) s = .next u ∧ Completes s rd v u := by
    rintro v ⟨u, hu, hc⟩
    rw [hexec] at hu
    cases hu
    simp [hc.phase] at hw
  cases hd : s.work.mr.draw with
  | none =>
    obtain ⟨htwo, hrefused, hnone⟩ := mrtSpecialCases s rd a b hd
    have h2 := mt htwo hnot
    have hrej := mt hrefused hnot
    have hodd : s.work.opA.toNat % 2 = 1 := by omega
    have hge : 3 ≤ s.work.opA.toNat := by omega
    have hk : s.work.opB.toNat ≠ 0 := fun h0 => hnot (hnone hodd hge h0)
    obtain ⟨u, hu, hawaits, hsplit, hdOdd, htwos, hleft⟩ := mrtFirstRequest s rd a b hd hodd hge hk
    rw [hexec] at hu
    cases hu
    exact ⟨hawaits, hawaits.mrOk hdec hodd hge hsplit hdOdd htwos (by rw [hleft]; omega) (by rw [hleft])⟩
  | some r =>
    have hok := hrun (.inr ⟨hp, by rw [hd]; rfl⟩)
    obtain ⟨hrej, hlast, hnext⟩ := mrtRound_verdict s rd a b r hd hok.ge hok.twosPos hok.leftPos
    have hliar := not_not.mp (mt hrej hnot)
    have h2 : 2 ≤ s.work.mr.left.toNat := by
      have h1 : s.work.mr.left.toNat ≠ 1 := fun h1 => hnot (hlast hliar h1)
      have := hok.leftPos
      omega
    obtain ⟨u, hu, hawaits, hdKept, hsKept, hleft⟩ := hnext hliar h2
    rw [hexec] at hu
    cases hu
    exact ⟨hawaits, hawaits.mrOk hdec hok.odd hok.ge (by rw [hdKept, hsKept]; exact hok.split)
      (by rw [hdKept]; exact hok.oddPart) (by rw [hsKept]; exact hok.twosPos) (by omega)
      (by have := hok.leftLe; omega)⟩

end Test

section Steps
variable {s t : State}

/-- A CORE step keeps the invariant: a command that ends does so in IDLE, and only MRT goes on. -/
theorem coreStep_keeps_inv (hi : s.Inv) (h : coreStep s = .next t) : t.Inv := by
  rcases coreStep_cases h with ⟨_, rfl⟩ | ⟨hr, hp, i, hdec, hexec⟩ | ⟨_, _, _, rfl⟩
  · exact hi
  · rcases exec_cases hexec with ⟨v, w, _, _, _, rfl⟩ | rfl | ⟨w, _, _, _, ⟨rd, a, b, rfl⟩, ht⟩
    · exact State.inv_of_idle rfl (by simp)
    · exact State.inv_of_idle rfl (by simp)
    · obtain ⟨hawaits, hok⟩ := mrOk_of_exec_mrt hdec hi.test hp hexec (by rw [ht]; rfl)
      obtain ⟨hd, he, hc⟩ := hi.report_of_busy (by simp [hp])
      exact State.inv_of_busy (hawaits.done.trans hd) (hawaits.err.trans he) (hawaits.ecode.trans hc)
        (hawaits.surroundings.rst.trans hr) (fun _ => hawaits.noDraw) (fun _ => hok)
  · exact State.inv_of_idle rfl (by simp)

/-- A host write keeps the invariant: acceptance starts with a clear report and no draw in hand, a draw goes
to a test that waits for it, a soft reset ends in IDLE. -/
theorem hostWrite_keeps_inv (hi : s.Inv) (hr : s.rst = false) (v : Word) {off : Nat} (h4 : off % 4 = 0)
    (h : off < 256) : (s.hostWrite v (target off)).Inv := by
  rcases hostWrite_cases s v h4 h with ⟨_, hw⟩ | ⟨_, hw⟩ | ⟨_, _, hw⟩ | ⟨_, hp, hw⟩ | ⟨i, _, _, hw⟩ |
    ⟨_, hw⟩ | ⟨_, hw⟩ <;> rw [hw]
  case inl =>
    rcases writeCtrl_cases s v with ⟨_, hc⟩ | ⟨_, hc⟩ <;> rw [hc]
    · exact State.inv_of_idle rfl (by simp [State.softReset, State.setEnables])
    · exact hi.of_visible_change _ _ _ _ _ _ _ _ id id
  case inr.inl =>
    exact hi.of_visible_change _ _ _ _ _ _ _ _
      (fun hd => by rw [State.ackStatus_done, hd, Bool.false_and]) id
  case inr.inr.inl =>
    obtain ⟨k, hk, hacc⟩ := accept_eq s v
    rw [hacc]
    refine State.inv_of_busy rfl rfl rfl hr (fun h => by cases h) fun hrun => ?_
    simp [State.mrRunning, hk] at hrun
  case inr.inr.inr.inl =>
    obtain ⟨hd, he, hc⟩ := hi.report_of_busy (by simp [hp])
    have hok := hi.test (.inl hp)
    exact State.inv_of_busy hd he hc hr (fun h => by cases h) fun _ =>
      ⟨hok.command, hok.odd, hok.ge, hok.split, hok.oddPart, hok.twosPos, hok.leftPos, hok.leftLe⟩
  all_goals exact hi.of_visible_change _ _ _ _ _ _ _ _ id id

/-- Every step keeps the invariant. -/
theorem step_keeps_inv (hi : s.Inv) (h : step s = .next t) : t.Inv := by
  rcases step_cases h with ⟨_, hcore⟩ | ⟨off, us, _, _, _, _, rfl⟩ | ⟨off, v, us, _, hr, hlt, h4, rfl⟩ |
    ⟨level, us, _, rfl⟩
  · exact coreStep_keeps_inv (hi.of_turns _) hcore
  · obtain ⟨v, n, hread⟩ := hostRead_eq { s with turns := us } (target off)
    rw [hread]
    exact hi.of_visible_change _ _ _ _ _ _ _ _ id id
  · exact hostWrite_keeps_inv (hi.of_turns us) hr v h4 hlt
  · cases level with
    | true => exact State.inv_of_idle rfl (by simp [State.rstEdge, State.hardReset])
    | false => exact hi.of_visible_change _ _ _ _ _ _ _ _ id (fun h => by cases h)

end Steps

/-- Settles O59, by what each kind of step does. -/
theorem stepKeepsInvariant : Obligations.StepKeepsInvariant := by
  unfold Obligations.StepKeepsInvariant
  exact fun _ _ => step_keeps_inv

/-- Settles O58: after reset the CORE is IDLE and reports no error. -/
theorem resetMeetsInvariant : Obligations.ResetMeetsInvariant := by
  unfold Obligations.ResetMeetsInvariant
  exact State.inv_of_idle rfl (by decide)

/-- Settles O56: in WAIT_RAND the CORE is busy, and while it is busy DONE is 0. -/
theorem atMostOneInterruptSource : Obligations.AtMostOneInterruptSource := by
  unfold Obligations.AtMostOneInterruptSource
  rintro s hi ⟨hd, hn⟩
  simp [hi.busyNotDone (hi.rneedBusy hn)] at hd

end Sys2Proof.Machine
end

section
/-! PROOFS. Hidden working state never shows (10_state.md R33): two states that differ in `work` only, compared
access by access and command by command; O60. -/

namespace Sys2Proof.Machine

/-- Two outcomes that no host can tell apart: the same stop, or next states of that kind. -/
inductive SameOutcome : Host.Outcome State Fault Refusal → Host.Outcome State Fault Refusal → Prop
  | next {s t : State} (h : Indistinguishable s t) : SameOutcome (.next s) (.next t)
  | fault (f : Fault) : SameOutcome (.fault f) (.fault f)
  | refused (r : Refusal) : SameOutcome (.refused r) (.refused r)

section Pairs
variable {s : State} {k : Work}

/-- In IDLE no hidden register will be read (10_state.md R33). -/
theorem indistinguishable_of_idle {t : State} (h : SameVisible s t) (hp : s.phase = .idle) :
    Indistinguishable s t :=
  ⟨h, fun hn => absurd hp hn⟩

/-- A change of what the host sees, but for the phase and the word, keeps two states indistinguishable. -/
theorem Indistinguishable.of_visible_change (h : Indistinguishable s { s with work := k })
    (x : Vector Word 16) (written : Vector Bool 16) (ieDone ieRand done coll rst : Bool) (resp : Response)
    (freeCtr : Nat) (turns : List Turn) :
    Indistinguishable
      { s with
        x := x, written := written, ieDone := ieDone, ieRand := ieRand, done := done, coll := coll, rst := rst
        resp := resp, freeCtr := freeCtr, turns := turns }
      { s with
        x := x, written := written, ieDone := ieDone, ieRand := ieRand, done := done, coll := coll, rst := rst
        resp := resp, freeCtr := freeCtr, turns := turns, work := k } :=
  ⟨rfl, fun hp =>
    have hl := h.2 hp
    ⟨hl.opA, hl.opB, hl.opM, hl.draw, hl.d, hl.twos, hl.left⟩⟩

/-- A used field latches the register, whatever the operand register held (10_state.md R35). -/
theorem State.latched_of_used (s : State) {field : Option RegNum} (h : field ≠ none) (old old' : Word) :
    s.latched field old = s.latched field old' := by
  cases field with
  | none => exact absurd rfl h
  | some r => rfl

/-- Just after acceptance no Miller-Rabin test is under way (10_state.md R35). -/
theorem State.not_mrRunning_of_no_draw (hp : s.phase = .exec) (hd : s.work.mr.draw = none) :
    ¬ s.mrRunning := by
  simp [State.mrRunning, hp, hd]

end Pairs

/-- Acceptance writes every operand register that the command will read (10_state.md R35). -/
theorem accept_indistinguishable (s : State) (k : Work) (v : Word) (resp : Response) :
    Indistinguishable { s.accept v with resp := resp }
      { State.accept { s with work := k } v with resp := resp } := by
  cases hd : decode v with
  | illegal why =>
    rw [State.accept_of_illegal hd, State.accept_of_illegal hd]
    have hnone : ∀ i, decode v ≠ .command i := fun i hi => by simp [hd] at hi
    refine ⟨rfl, fun _ => ⟨fun i hi => absurd hi (hnone i), fun i hi => absurd hi (hnone i),
      fun i hi => absurd hi (hnone i), rfl, ?_, ?_, ?_⟩⟩ <;>
    exact fun hrun => absurd hrun (State.not_mrRunning_of_no_draw rfl rfl)
  | command i =>
    rw [State.accept_of_command hd, State.accept_of_command hd]
    have hsame : ∀ i', decode v = .command i' → i = i' := fun i' hi => by simpa [hd] using hi
    refine ⟨rfl, fun _ => ⟨fun _ _ => rfl, fun i' hi hused => ?_, fun i' hi hused => ?_, rfl, ?_, ?_, ?_⟩⟩
    · cases hsame i' hi
      exact s.latched_of_used hused _ _
    · cases hsame i' hi
      exact s.latched_of_used hused _ _
    all_goals exact fun hrun => absurd hrun (State.not_mrRunning_of_no_draw rfl rfl)

section Host
variable {s : State} {k : Work} (h : Indistinguishable s { s with work := k })
include h

/-- A host read shows registers, STATUS, CTRL and CMD, none of them hidden (10_state.md R41). -/
theorem hostRead_indistinguishable (g : Target) :
    Indistinguishable (s.hostRead g) (State.hostRead { s with work := k } g) := by
  cases g with
  | reg i =>
    simp only [State.hostRead]
    split <;> exact h.of_visible_change _ _ _ _ _ _ _ _ _ _
  | _ => exact h.of_visible_change _ _ _ _ _ _ _ _ _ _

/-- A host write reads no hidden register; what it hands to the hidden state it writes (10_state.md R35,
43_miller_rabin.md R151). -/
theorem hostWrite_indistinguishable (v : Word) (g : Target) :
    Indistinguishable (s.hostWrite v g) (State.hostWrite { s with work := k } v g) := by
  cases g with
  | ctrl =>
    simp only [State.hostWrite, State.writeCtrl]
    split
    · exact indistinguishable_of_idle rfl rfl
    · exact h.of_visible_change _ _ _ _ _ _ _ _ _ _
  | status => exact h.of_visible_change _ _ _ _ _ _ _ _ _ _
  | reserved => exact h.of_visible_change _ _ _ _ _ _ _ _ _ _
  | cmd =>
    simp only [State.hostWrite, State.writeCmd]
    split
    · exact accept_indistinguishable s k v .written
    all_goals exact h.of_visible_change _ _ _ _ _ _ _ _ _ _
  | rand =>
    simp only [State.hostWrite, State.writeRand]
    split
    · rename_i hp
      have hl := h.2 (by simp [hp])
      exact ⟨rfl, fun _ => ⟨hl.opA, hl.opB, hl.opM, rfl, fun _ => hl.d (.inl hp), fun _ => hl.twos (.inl hp),
        fun _ => hl.left (.inl hp)⟩⟩
    all_goals exact h.of_visible_change _ _ _ _ _ _ _ _ _ _
  | reg i =>
    simp only [State.hostWrite, State.writeReg]
    split <;> exact h.of_visible_change _ _ _ _ _ _ _ _ _ _

/-- A host access is served, refused or faulted whatever the hidden state holds (20_memory.md R64, R65). -/
theorem hostAccess_sameOutcome (a : Access) :
    SameOutcome (hostAccess a s) (hostAccess a { s with work := k }) := by
  unfold hostAccess
  split
  · exact SameOutcome.refused _
  · split
    · exact SameOutcome.refused _
    · split
      · exact SameOutcome.fault _
      · split
        · exact SameOutcome.next (hostRead_indistinguishable h _)
        · exact SameOutcome.next (hostWrite_indistinguishable h _ _)

end Host

section Core
variable {s : State} {k : Work}

/-- Two commands that end in IDLE and show the same have the same outcome. -/
theorem sameOutcome_of_idle {t u : State} (h : SameVisible t u) (hp : t.phase = .idle) :
    SameOutcome (.next t) (.next u) :=
  .next (indistinguishable_of_idle h hp)

section Commands
variable {i : Instr} (hdec : decode s.cmdLatch = .command i) (hl : SameLive s { s with work := k })
include hdec hl

/-- The first CORE step of MRT reads its operands only, and writes the controller's registers
(43_miller_rabin.md R156). -/
theorem mrtStart_indistinguishable (rd : RegNum) (hB : k.opB = s.work.opB) :
    Indistinguishable (mrtStart rd s) (mrtStart rd { s with work := k }) := by
  have hA : k.opA = s.work.opA := hl.opA i hdec
  simp only [mrtStart, hA, hB]
  split
  · exact indistinguishable_of_idle rfl rfl
  split
  · exact indistinguishable_of_idle rfl rfl
  split
  · exact indistinguishable_of_idle rfl rfl
  · exact ⟨rfl, fun _ => ⟨hl.opA, hl.opB, hl.opM, hl.draw,
      fun _ => congrArg (fun c => (oddPart (c - 1)).1) hA, fun _ => congrArg (fun c => (oddPart (c - 1)).2) hA,
      fun _ => rfl⟩⟩

/-- A round of MRT reads the candidate, the draw and the controller's registers only
(43_miller_rabin.md R156). -/
theorem mrtRound_indistinguishable (rd : RegNum) (r : Word) (hrun : s.mrRunning) :
    Indistinguishable (mrtRound rd r s) (mrtRound rd r { s with work := k }) := by
  have hA : k.opA = s.work.opA := hl.opA i hdec
  have hd : k.mr.d = s.work.mr.d := hl.d hrun
  have htwos : k.mr.twos = s.work.mr.twos := hl.twos hrun
  have hleft : k.mr.left = s.work.mr.left := hl.left hrun
  simp only [mrtRound, hA, hd, htwos, hleft]
  split
  · split
    · exact indistinguishable_of_idle rfl rfl
    · exact ⟨rfl, fun _ => ⟨hl.opA, hl.opB, hl.opM, rfl, fun _ => hd, fun _ => htwos,
        fun _ => congrArg (· - 1) hleft⟩⟩
  · exact indistinguishable_of_idle rfl rfl

/-- A command reads its operands and, for a running test, the controller's registers. -/
theorem exec_sameOutcome (hp : s.phase = .exec) : SameOutcome (exec i s) (exec i { s with work := k }) := by
  have hA : k.opA = s.work.opA := hl.opA i hdec
  have hB : rs2Of i ≠ none → k.opB = s.work.opB := hl.opB i hdec
  have hM : rmOf i ≠ none → k.opM = s.work.opM := hl.opM i hdec
  cases i with
  | madd rd a b m =>
    simp only [exec, execMadd, hA, hB nofun, hM nofun]
    split <;> exact sameOutcome_of_idle rfl rfl
  | msub rd a b m =>
    simp only [exec, execMsub, hA, hB nofun, hM nofun]
    split <;> exact sameOutcome_of_idle rfl rfl
  | mmul rd a b m =>
    simp only [exec, execMmul, hA, hB nofun, hM nofun]
    split <;> exact sameOutcome_of_idle rfl rfl
  | mpow rd a b m =>
    simp only [exec, execMpow, hA, hB nofun, hM nofun]
    split
    · exact sameOutcome_of_idle rfl rfl
    · split <;> exact sameOutcome_of_idle rfl rfl
  | minv rd a m =>
    simp only [exec, execMinv, hA, hM nofun]
    split <;> exact sameOutcome_of_idle rfl rfl
  | gcd rd a b =>
    simp only [exec, execGcd, hA, hB nofun]
    exact sameOutcome_of_idle rfl rfl
  | mrt rd a b =>
    cases hd : s.work.mr.draw with
    | none =>
      rw [exec_mrt_of_no_draw rd a b hd, exec_mrt_of_no_draw rd a b (hl.draw.trans hd)]
      exact .next (mrtStart_indistinguishable hdec hl rd (hB nofun))
    | some r =>
      rw [exec_mrt_of_draw rd a b hd, exec_mrt_of_draw rd a b (hl.draw.trans hd)]
      exact .next (mrtRound_indistinguishable hdec hl rd r (.inr ⟨hp, by rw [hd]; rfl⟩))

end Commands

/-- The CORE's own step, by the phase (10_state.md R36). -/
theorem coreStep_sameOutcome (h : Indistinguishable s { s with work := k }) :
    SameOutcome (coreStep s) (coreStep { s with work := k }) := by
  by_cases hs : s.rst = true ∨ s.phase ≠ .exec
  · rw [coreStep_still hs, coreStep_still (s := { s with work := k }) hs]
    exact .next h
  · obtain ⟨hr, hp⟩ := not_or.mp hs
    rw [Bool.not_eq_true] at hr
    rw [not_not] at hp
    cases hd : decode s.cmdLatch with
    | illegal why =>
      rw [coreStep_illegal hr hp hd, coreStep_illegal (s := { s with work := k }) hr hp hd]
      exact sameOutcome_of_idle rfl rfl
    | command i =>
      rw [coreStep_command hr hp hd, coreStep_command (s := { s with work := k }) hr hp hd]
      exact exec_sameOutcome hd (h.2 (by simp [hp])) hp

/-- A step of two states that differ in hidden registers which no rule will read. -/
theorem step_sameOutcome (h : Indistinguishable s { s with work := k }) :
    SameOutcome (step s) (step { s with work := k }) := by
  have hturns : ∀ ts, Indistinguishable { s with turns := ts } { s with turns := ts, work := k } :=
    fun ts => h.of_visible_change _ _ _ _ _ _ _ _ _ ts
  simp only [step, takeTurn]
  split
  · exact coreStep_sameOutcome h
  · exact coreStep_sameOutcome (hturns _)
  · rename_i a ts _
    exact hostAccess_sameOutcome (hturns ts) a
  · rename_i level ts _
    cases level with
    | true => exact sameOutcome_of_idle rfl rfl
    | false => exact .next (h.of_visible_change _ _ _ _ _ _ _ _ _ ts)

end Core

/-- Settles O60, by `step_sameOutcome`. -/
theorem hiddenStateNeverShows : Obligations.HiddenStateNeverShows := by
  unfold Obligations.HiddenStateNeverShows
  intro s t h
  obtain ⟨k, rfl⟩ : ∃ k : Work, t = { s with work := k } := ⟨t.work, h.1⟩
  have hstep := step_sameOutcome h
  refine ⟨fun s' hs => ?next, fun f hf => ?fault, fun r hr => ?refused⟩
  case next =>
    rw [hs] at hstep
    generalize step { s with work := k } = o at hstep
    cases hstep with
    | next hnext => exact ⟨_, rfl, hnext⟩
  case fault =>
    rw [hf] at hstep
    generalize step { s with work := k } = o at hstep
    cases hstep
    rfl
  case refused =>
    rw [hr] at hstep
    generalize step { s with work := k } = o at hstep
    cases hstep
    rfl

end Sys2Proof.Machine
end

section
/-! PROOFS. What a step can change (10_state.md section 7, 20_memory.md section 6): the eight kinds of step said
once, and from them O28 to O32. -/

namespace Sys2Proof.Machine

/-- Everything a step that answers a next state can have done, by what it means to a command and to the
registers; `step_effect` ties it to the model.  A quiet step is an idle CORE step, a read, a dropped write, a
write to a reserved offset, to STATUS or to the enables, or the release of rst. -/
inductive StepEffect (s : State) : State → Prop
  | quiet (ieDone ieRand done coll rst : Bool) (resp : Response) (freeCtr : Nat) (turns : List Turn) :
      StepEffect s { s with
        ieDone := ieDone, ieRand := ieRand, done := done, coll := coll, rst := rst, resp := resp
        freeCtr := freeCtr, turns := turns }
  | runs {t : State} (i : Instr) (us : List Turn) (hp : s.phase = .exec)
      (hd : decode s.cmdLatch = .command i) (hexec : exec i { s with turns := us } = .next t) : StepEffect s t
  | illegal (us : List Turn) (hp : s.phase = .exec) : StepEffect s (State.raise { s with turns := us } .illegal)
  | softReset (v : Word) (us : List Turn) (hv : v.getLsbD 31 = true)
      (hh : s.turns.head? = some (.host (writeAt 0x000 v))) :
      StepEffect s { State.setEnables (State.softReset { s with turns := us }) v with resp := .written }
  | accepts (w : Word) (us : List Turn) (hp : s.phase = .idle)
      (hh : s.turns.head? = some (.host (writeAt 0x008 w))) :
      StepEffect s { State.accept { s with turns := us } w with resp := .written }
  | draws (r : Word) (us : List Turn) (hp : s.phase = .waitRand)
      (hh : s.turns.head? = some (.host (writeAt 0x00C r))) :
      StepEffect s { State.giveDraw { s with turns := us } r with resp := .written }
  | writesReg (i : RegNum) (v : Word) (us : List Turn) (hp : s.phase = .idle)
      (hh : s.turns.head? = some (.host (writeAt (regOffset i) v))) :
      StepEffect s { State.setReg { s with turns := us } i v with resp := .written }
  | hardReset (us : List Turn) (hh : s.turns.head? = some (.rst true)) :
      StepEffect s (State.rstEdge { s with turns := us } true)

section Effects
variable {s t : State}

/-- The CORE's own step: quiet outside EXEC (10_state.md R36). -/
theorem coreStep_effect (us : List Turn) (h : coreStep { s with turns := us } = .next t) : StepEffect s t := by
  rcases coreStep_cases h with ⟨_, rfl⟩ | ⟨_, hp, i, hd, hexec⟩ | ⟨_, hp, _, rfl⟩
  · exact .quiet ..
  · exact .runs i us hp hd hexec
  · exact .illegal us hp

/-- A host write, by where it goes (20_memory.md R63). -/
theorem hostWrite_effect {off : Nat} {v : Word} {us : List Turn} (ht : s.turns = .host (writeAt off v) :: us)
    (h4 : off % 4 = 0) (h : off < 256) : StepEffect s (State.hostWrite { s with turns := us } v (target off)) := by
  have hh : s.turns.head? = some (.host (writeAt off v)) := by rw [ht]; rfl
  rcases hostWrite_cases { s with turns := us } v h4 h with ⟨rfl, hw⟩ | ⟨_, hw⟩ | ⟨rfl, hp, hw⟩ |
    ⟨rfl, hp, hw⟩ | ⟨i, rfl, hp, hw⟩ | ⟨_, hw⟩ | ⟨_, hw⟩ <;> rw [hw]
  · rcases writeCtrl_cases { s with turns := us } v with ⟨hv, hc⟩ | ⟨_, hc⟩ <;> rw [hc]
    · exact .softReset v us hv hh
    · exact .quiet ..
  · exact .quiet ..
  · exact .accepts v us hp hh
  · exact .draws v us hp hh
  · exact .writesReg i v us hp hh
  · exact .quiet ..
  · exact .quiet ..

/-- Every step is of one of the eight kinds. -/
theorem step_effect (h : step s = .next t) : StepEffect s t := by
  rcases step_cases h with ⟨_, hcore⟩ | ⟨off, us, _, _, _, _, rfl⟩ | ⟨off, v, us, ht, _, hlt, h4, rfl⟩ |
    ⟨level, us, ht, rfl⟩
  · exact coreStep_effect _ hcore
  · obtain ⟨v, n, hread⟩ := hostRead_eq { s with turns := us } (target off)
    rw [hread]
    exact .quiet ..
  · exact hostWrite_effect ht h4 hlt
  · cases level with
    | true => exact .hardReset us (by rw [ht]; rfl)
    | false => exact .quiet ..

/-- Acceptance reads registers and writes none (10_state.md R35). -/
@[simp] theorem State.accept_reg (s : State) (w : Word) (r : RegNum) : (s.accept w).reg r = s.reg r := by
  obtain ⟨k, -, hacc⟩ := accept_eq s w
  rw [hacc]
  rfl

end Effects

/-- Settles O28: a CORE step in WAIT_RAND takes its turn and changes nothing else. -/
theorem waitRandHangsWithoutDraw : Obligations.WaitRandHangsWithoutDraw := by
  unfold Obligations.WaitRandHangsWithoutDraw
  intro n
  induction n with
  | zero => exact fun _ _ _ => rfl
  | succ n ih =>
    intro s hp hcore
    have hdue : s.turns = [] ∨ s.turns.head? = some .core := by
      cases hts : s.turns with
      | nil => exact .inl rfl
      | cons u us => exact .inr (congrArg some (hcore u (by simp [hts])))
    have hstep : step s = .next { s with turns := s.turns.tail } := by
      rw [step_core hdue, coreStep_still (.inr (by simp [hp]))]
    rw [run_succ_of_step hstep, ih { s with turns := s.turns.tail } hp
      fun u hu => hcore u (List.mem_of_mem_tail hu), List.drop_tail]

/-- Settles O29: of the steps from WAIT_RAND only these three leave the phase. -/
theorem onlyDrawOrResetEndsTheWait : Obligations.OnlyDrawOrResetEndsTheWait := by
  unfold Obligations.OnlyDrawOrResetEndsTheWait
  intro s t hp hs hne
  cases step_effect hs with
  | quiet => exact absurd hp hne
  | runs _ _ hp' => simp [hp] at hp'
  | illegal _ hp' => simp [hp] at hp'
  | softReset v _ hv hh => exact .inr (.inl ⟨v, hv, hh⟩)
  | accepts _ _ hp' => simp [hp] at hp'
  | draws r _ _ hh => exact .inl ⟨r, hh⟩
  | writesReg _ _ _ hp' => simp [hp] at hp'
  | hardReset _ hh => exact .inr (.inr hh)

/-- Settles O30: only acceptance leaves IDLE, and only it and the resets write cmd_latch. -/
theorem onlyCommandWriteStartsCommand : Obligations.OnlyCommandWriteStartsCommand := by
  unfold Obligations.OnlyCommandWriteStartsCommand
  refine ⟨fun s t hp hs hne => ?_, fun s t hs hne => ?_⟩
  · cases step_effect hs with
    | accepts w _ _ hh => exact ⟨w, hh, rfl, rfl⟩
    | quiet => exact absurd hp hne
    | runs _ _ hp' => simp [hp] at hp'
    | illegal _ hp' => simp [hp] at hp'
    | draws _ _ hp' => simp [hp] at hp'
    | writesReg => exact absurd hp hne
    | softReset => exact absurd rfl hne
    | hardReset => exact absurd rfl hne
  · cases step_effect hs with
    | accepts w _ hp hh => exact .inl ⟨hp, hh⟩
    | softReset v _ hv hh => exact .inr ⟨rfl, .inl ⟨v, hv, hh⟩⟩
    | hardReset _ hh => exact .inr ⟨rfl, .inr hh⟩
    | runs i us _ _ hexec => exact absurd (commandFrame i _ t hexec).1.cmdLatch hne
    | quiet => exact absurd rfl hne
    | illegal => exact absurd rfl hne
    | draws => exact absurd rfl hne
    | writesReg => exact absurd rfl hne

/-- Settles O31: between busy states a step is quiet, a draw, or a draw request of the running command. -/
theorem acceptedCommandIsFixed : Obligations.AcceptedCommandIsFixed := by
  unfold Obligations.AcceptedCommandIsFixed
  intro s t hp hs hq
  cases step_effect hs with
  | quiet => exact ⟨rfl, rfl, rfl, rfl, fun _ => ⟨rfl, rfl⟩⟩
  | draws => exact ⟨rfl, rfl, rfl, rfl, fun _ => ⟨rfl, rfl⟩⟩
  | runs i us _ _ hexec =>
    obtain ⟨hsame, -, hkept⟩ := commandFrame i _ t hexec
    exact ⟨hsame.cmdLatch, hsame.opA, hsame.opB, hsame.opM, hkept (.inl hq)⟩
  | accepts _ _ hp' => exact absurd hp' hp
  | writesReg _ _ _ hp' => exact absurd hp' hp
  | illegal => exact absurd rfl hq
  | softReset => exact absurd rfl hq
  | hardReset => exact absurd rfl hq

/-- Settles O32: of the eight kinds of step three write a register, and a command writes only its own
destination. -/
theorem registersChangeOnlyByWriteCompletionOrReset :
    Obligations.RegistersChangeOnlyByWriteCompletionOrReset := by
  unfold Obligations.RegistersChangeOnlyByWriteCompletionOrReset
  intro s t r hs hne
  cases step_effect hs with
  | writesReg i v us hp hh =>
    have hir : i = r := by
      by_contra h
      exact hne (State.reg_setReg_of_ne { s with turns := us } i r v (Ne.symm h))
    subst hir
    exact .inl ⟨hp, v, hh, State.reg_setReg_self { s with turns := us } i v⟩
  | runs i us hp hd hexec =>
    obtain ⟨-, hother, hkept⟩ := commandFrame i _ t hexec
    have hdest : rdOf i = r := by
      by_contra h
      exact hne (hother r (Ne.symm h)).1
    obtain ⟨hidle, hok⟩ := not_or.mp (mt hkept fun h => hne (h r).1)
    refine .inr (.inl ⟨hp, ⟨i, hd, hdest⟩, not_not.mp hidle, ?_, Bool.eq_false_iff.mpr hok⟩)
    rcases exec_cases hexec with ⟨v, w, _, _, _, rfl⟩ | rfl | ⟨w, _, _, _, _, rfl⟩
    · rfl
    · rfl
    · simp at hidle
  | hardReset _ hh => exact .inr (.inr hh)
  | accepts w us => exact absurd (State.accept_reg { s with turns := us } w r) hne
  | quiet => exact absurd rfl hne
  | illegal => exact absurd rfl hne
  | softReset => exact absurd rfl hne
  | draws => exact absurd rfl hne

end Sys2Proof.Machine
end

section
/-! PROOFS. The register window and the resets (10_state.md section 4, 20_memory.md section 3,
70_reset_and_hazards.md section 1); O8, O9, O12 to O15, O20, O23, O24. -/

namespace Sys2Proof.Machine

section Words
variable (s : State)

/-- CTRL shows IE_DONE in bit 0 and IE_RAND in bit 1 (10_state.md R26). -/
theorem State.ctrlWord_enables : s.ctrlWord.getLsbD 0 = s.ieDone ∧ s.ctrlWord.getLsbD 1 = s.ieRand := by
  simp only [State.ctrlWord, BitVec.getLsbD_or, getLsbD_bitAt, Nat.reduceLT]
  simp

/-- STATUS shows its five flags in bits 0 to 4 (10_state.md R27). -/
theorem State.statusWord_flags :
    s.statusWord.getLsbD 0 = s.busy ∧ s.statusWord.getLsbD 1 = s.done ∧ s.statusWord.getLsbD 2 = s.err ∧
      s.statusWord.getLsbD 3 = s.rneed ∧ s.statusWord.getLsbD 4 = s.coll := by
  have hcode : ∀ k, k < 8 → (s.ecode.code <<< 8).getLsbD k = false :=
    fun k hk => s.ecode.getLsbD_code_shift (.inl hk)
  simp only [State.statusWord, BitVec.getLsbD_or, getLsbD_bitAt, hcode, Nat.reduceLT]
  simp

/-- The flags reach no bit of ECODE's field (10_state.md R27). -/
theorem extract_ecode_bitAt : ∀ (b : Bool) (n : Fin 8), (bitAt b n).extractLsb' 8 4 = 0 := by decide

/-- STATUS shows the number of ECODE in bits 11:8 (10_state.md R27). -/
theorem State.statusWord_ecode : s.statusWord.toNat / 2 ^ 8 % 2 ^ 4 = s.ecode.code.toNat := by
  have hflag : ∀ (b : Bool) (n : Nat) (hn : n < 8), (bitAt b n).extractLsb' 8 4 = 0 :=
    fun b n hn => extract_ecode_bitAt b ⟨n, hn⟩
  have hcode : ((s.ecode.code <<< 8).extractLsb' 8 4).toNat = s.ecode.code.toNat := by
    cases s.ecode <;> decide
  rw [← Nat.shiftRight_eq_div_pow, ← BitVec.extractLsb'_toNat, ← hcode]
  simp [State.statusWord, BitVec.extractLsb'_or, hflag]

/-- With both enables off CTRL reads 0 (10_state.md R26). -/
theorem State.ctrlWord_eq_zero {s : State} (hd : s.ieDone = false) (hr : s.ieRand = false) :
    s.ctrlWord = 0 := by
  simp only [State.ctrlWord, hd, hr]
  decide

/-- With no command and no report STATUS reads 0 (10_state.md R27). -/
theorem State.statusWord_eq_zero {s : State} (hp : s.phase = .idle) (hd : s.done = false) (he : s.err = false)
    (hc : s.coll = false) (hcode : s.ecode = .none) : s.statusWord = 0 := by
  simp only [State.statusWord, State.busy, State.rneed, hp, hd, he, hc, hcode]
  decide

end Words

section AddressMap

/-- Every register stands in the window, at a multiple of 4 (20_memory.md R63). -/
theorem regOffset_legal (i : RegNum) : regOffset i < 256 ∧ regOffset i % 4 = 0 := by
  have hi := i.isLt
  simp only [regOffset]
  omega

/-- Right after reset a read of what is no register answers 0 (70_reset_and_hazards.md R240). -/
theorem reset_hostRead_resp {off : Nat} (ts : List Turn) (h : off ≤ 0x0FC) (h4 : off % 4 = 0)
    (hreg : off < 0x040 ∨ 0x080 ≤ off) :
    (State.hostRead { State.reset with turns := ts } (target off)).resp = .read 0 := by
  rcases target_cases h4 (by omega) with ⟨ht, _⟩ | ⟨ht, _⟩ | ⟨ht, _⟩ | ⟨ht, _⟩ | ⟨i, _, ho⟩ | ht
  case inl =>
    rw [ht]
    exact congrArg Response.read (State.ctrlWord_eq_zero rfl rfl)
  case inr.inl =>
    rw [ht]
    exact congrArg Response.read (State.statusWord_eq_zero rfl rfl rfl rfl rfl)
  case inr.inr.inr.inr.inl =>
    have hi := i.isLt
    simp only [regOffset] at ho
    omega
  all_goals
    rw [ht]
    rfl

end AddressMap

/-- Settles O8, by the map read forwards and, for the values after reset, backwards. -/
theorem addressMap : Obligations.AddressMap := by
  unfold Obligations.AddressMap
  refine ⟨rfl, rfl, rfl, rfl, fun off hlo hhi _ => target_reserved (.inl ⟨hlo, hhi⟩), target_regOffset,
    fun off hlo hhi _ => target_reserved (.inr ⟨hlo, hhi⟩), fun off ts h h4 hreg => ?_⟩
  exact ⟨_, step_read (s := { State.reset with turns := .host (readAt off) :: ts }) rfl (by omega) h4 rfl,
    reset_hostRead_resp ts h h4 hreg⟩

section RegisterAccess
variable {s : State} {ts : List Turn} (hr : s.rst = false) (i : RegNum)

/-- In IDLE a value written to x[i] is stored (10_state.md R40). -/
theorem State.writeReg_of_idle {v : Word} (hp : s.phase = .idle) : s.writeReg i v = s.setReg i v := by
  simp only [State.writeReg, hp]

/-- In IDLE a read of x[i] answers its value (10_state.md R40). -/
theorem State.hostRead_reg_of_idle (hp : s.phase = .idle) : s.hostRead (.reg i) = s.answer (s.reg i) := by
  simp only [State.hostRead, hp]

/-- Outside IDLE a read of x[i] answers a free value (10_state.md R40). -/
theorem State.hostRead_reg_of_ne_idle (hp : s.phase ≠ .idle) :
    s.hostRead (.reg i) = { s.answer (Config.freeWord s.freeCtr) with freeCtr := s.freeCtr + 1 } := by
  simp only [State.hostRead]
  split
  · contradiction
  all_goals rfl

include hr

/-- A write of x[i], stored or dropped by `writeReg` (10_state.md R40). -/
theorem step_reg_write {v : Word} (ht : s.turns = .host (writeAt (regOffset i) v) :: ts) :
    step s = .next { State.writeReg { s with turns := ts } i v with resp := .written } := by
  obtain ⟨hlt, h4⟩ := regOffset_legal i
  rw [step_write hr hlt h4 ht, target_regOffset]
  rfl

/-- A read of x[i] (10_state.md R40). -/
theorem step_reg_read (ht : s.turns = .host (readAt (regOffset i)) :: ts) :
    step s = .next (State.hostRead { s with turns := ts } (.reg i)) := by
  obtain ⟨hlt, h4⟩ := regOffset_legal i
  rw [step_read hr hlt h4 ht, target_regOffset]

end RegisterAccess

/-- Settles O9: the write and the read of x[i], by the phase. -/
theorem registerAccess : Obligations.RegisterAccess := by
  unfold Obligations.RegisterAccess
  intro s ts i v hr
  refine ⟨fun ht => ⟨fun hp => ?dropped, fun hp => ?stored⟩, fun ht => ⟨fun hp => ?free, fun hp => ?value⟩⟩
  case dropped =>
    rw [step_reg_write hr i ht, State.writeReg_of_ne_idle (s := { s with turns := ts }) hp]
    rfl
  case stored =>
    refine ⟨_, step_reg_write hr i ht, ?_⟩
    rw [State.writeReg_of_idle (s := { s with turns := ts }) i hp]
    exact ⟨State.reg_setReg_self { s with turns := ts } i v, State.marked_setReg_self { s with turns := ts } i v,
      fun r h => ⟨State.reg_setReg_of_ne { s with turns := ts } i r v h,
        State.marked_setReg_of_ne { s with turns := ts } i r v h⟩, rfl⟩
  case free =>
    rw [step_reg_read hr i ht, State.hostRead_reg_of_ne_idle (s := { s with turns := ts }) i hp]
    rfl
  case value =>
    rw [step_reg_read hr i ht, State.hostRead_reg_of_idle (s := { s with turns := ts }) i hp]
    rfl

/-- Settles O12: the write by bit 31, the read by CTRL's bits. -/
theorem controlRegister : Obligations.ControlRegister := by
  unfold Obligations.ControlRegister
  intro s ts v hr
  refine ⟨fun ht hv => ?_, fun ht hv => ?_, fun ht => ⟨_, step_ctrl_read hr ht, ?_⟩⟩
  · rw [step_ctrl_write hr ht, State.writeCtrl, hv]
    rfl
  · refine ⟨_, step_ctrl_write hr ht, rfl, rfl, ?_⟩
    rw [State.writeCtrl, hv]
    rfl
  · exact ⟨s.ctrlWord_enables.1, s.ctrlWord_enables.2, fun n hn => s.getLsbD_ctrlWord hn⟩

/-- Settles O13: the soft reset ends in IDLE with a clear report, and keeps the registers. -/
theorem softReset : Obligations.SoftReset := by
  unfold Obligations.SoftReset
  intro s ts v hr ht hv
  refine ⟨_, step_ctrl_write hr ht, ?_⟩
  have hsoft : State.writeCtrl { s with turns := ts } v =
      (State.softReset { s with turns := ts }).setEnables v := by rw [State.writeCtrl, if_pos hv]
  rw [hsoft]
  exact ⟨rfl, rfl, State.statusWord_eq_zero rfl rfl rfl rfl rfl, rfl, rfl, rfl, rfl, rfl, rfl,
    State.getLsbD_ctrlWord _ (by decide), fun _ => ⟨rfl, rfl⟩, hr, rfl⟩

/-- Settles O14: STATUS bit by bit, and ECODE's field as a number. -/
theorem statusReadsItsFields : Obligations.StatusReadsItsFields := by
  unfold Obligations.StatusReadsItsFields
  intro s ts hr ht
  obtain ⟨hbusy, hdone, herr, hrneed, hcoll⟩ := s.statusWord_flags
  refine ⟨_, step_status_read hr ht, hbusy, hdone, herr, hrneed, hcoll,
    fun n h5 h7 => s.getLsbD_statusWord_reserved (.inl ⟨h5, h7⟩), ?_,
    fun n hn => s.getLsbD_statusWord_reserved (.inr hn)⟩
  rw [s.statusWord_ecode]
  cases s.ecode <;> rfl

/-- Settles O15: the STATUS write is `ackStatus`. -/
theorem statusWriteOneToClear : Obligations.StatusWriteOneToClear := by
  unfold Obligations.StatusWriteOneToClear
  intro s ts v hr ht
  have hclear : ∀ b c : Bool, (b && !c) = if c then false else b := by decide
  exact ⟨_, step_status_write hr ht, hclear _ _, hclear _ _, rfl, rfl, rfl⟩

/-- Settles O20: an access is first looked up in the window, then held against rst. -/
theorem accessesThatAreNotServed : Obligations.AccessesThatAreNotServed := by
  unfold Obligations.AccessesThatAreNotServed
  refine ⟨coreBase_mod, fun s ts a ht => ⟨fun hout => ?_, fun hlo hhi hr => ?_⟩⟩
  · have hoff : windowOffset a.addr = none := if_neg (by omega)
    simp only [step, takeTurn, ht, hostAccess, hoff]
  · have hoff : windowOffset a.addr = some (a.addr - Config.coreBase) := if_pos ⟨hlo, hhi⟩
    simp only [step, takeTurn, ht, hostAccess, hoff, hr, if_true]

/-- Settles O23, by the reset state's fields. -/
theorem stateAfterReset : Obligations.StateAfterReset := by
  unfold Obligations.StateAfterReset
  exact ⟨State.ctrlWord_eq_zero rfl rfl, State.statusWord_eq_zero rfl rfl rfl rfl rfl, rfl, rfl,
    State.irq_of_idle rfl rfl, fun r => Vector.getElem_replicate r.isLt⟩

/-- Settles O24, by the fields that the asserted rst leaves. -/
theorem hardwareReset : Obligations.HardwareReset := by
  unfold Obligations.HardwareReset
  intro s ts ht
  exact ⟨_, step_rst ht, rfl, State.ctrlWord_eq_zero rfl rfl, State.statusWord_eq_zero rfl rfl rfl rfl rfl, rfl, rfl,
    State.irq_of_idle rfl rfl, rfl, fun r => ⟨Vector.getElem_replicate r.isLt, Vector.getElem_ofFn r.isLt⟩⟩

end Sys2Proof.Machine
end

section
/-! PROOFS. A host that keeps the protocol (45_host_procedures.md R190) and reads written registers only; O57. -/

namespace Sys2Proof.Machine

/-- BUSY is 0 in IDLE only (10_state.md R33). -/
theorem State.busy_eq_false_iff {s : State} : s.busy = false ↔ s.phase = .idle := by
  simp [State.busy]

/-- RNEED is 1 in WAIT_RAND only (10_state.md R33). -/
theorem State.rneed_eq_true_iff {s : State} : s.rneed = true ↔ s.phase = .waitRand := by
  simp [State.rneed]

/-- An access that keeps the protocol is a legal read or write (20_memory.md R64). -/
theorem keepsProtocol_legal {s : State} {a : Access} (h : keepsProtocol s a) :
    ∃ off, off < 256 ∧ off % 4 = 0 ∧ (a = readAt off ∨ ∃ v, a = writeAt off v) := by
  obtain ⟨off, hoff, hsize, h4, -⟩ := h
  obtain ⟨haddr, hlt⟩ := eq_of_windowOffset hoff
  obtain ⟨addr, size, op⟩ := a
  subst haddr hsize
  cases op with
  | read => exact ⟨off, hlt, h4, .inl rfl⟩
  | write v => exact ⟨off, hlt, h4, .inr ⟨v, rfl⟩⟩

section Protocol
variable {s : State} {off : Nat} {v : Word} {i : RegNum}

/-- What the protocol asks of a read: x[i] only while BUSY is 0 (45_host_procedures.md R190). -/
theorem idle_of_protocol_reg_read (h : keepsProtocol s (readAt (regOffset i))) : s.phase = .idle := by
  obtain ⟨off, hoff, -, -, hm⟩ := h
  rw [readAt, windowOffset_coreBase (regOffset_legal i).1] at hoff
  cases hoff
  rw [target_regOffset] at hm
  exact State.busy_eq_false_iff.mp hm

/-- What the protocol asks of a write: none that is dropped (45_host_procedures.md R190). -/
theorem not_drops_of_protocol_write (hlt : off < 256) (h : keepsProtocol s (writeAt off v)) : ¬ s.drops off := by
  obtain ⟨off', hoff, -, -, hm⟩ := h
  rw [writeAt, windowOffset_coreBase hlt] at hoff
  cases hoff
  rintro (⟨rfl, hp⟩ | ⟨rfl, hp⟩ | ⟨hp, i, rfl⟩)
  · exact hp (State.busy_eq_false_iff.mp hm)
  · exact hp (State.rneed_eq_true_iff.mp hm)
  · rw [target_regOffset] at hm
    exact hp (State.busy_eq_false_iff.mp hm)

/-- A register that the host reads while BUSY is 0, and that is no unwritten one, is written
(10_state.md R21). -/
theorem marked_of_reg_read (hp : s.phase = .idle) (h : ¬ readsUnwritten s (readAt (regOffset i))) :
    s.marked i = true := by
  by_contra hm
  refine h ⟨regOffset i, windowOffset_coreBase (regOffset_legal i).1, ?_⟩
  rw [target_regOffset]
  exact ⟨State.busy_eq_false_iff.mpr hp, Bool.eq_false_iff.mpr hm⟩

/-- The operands of a command that the host issues are written where none is an unwritten one
(10_state.md R21, R35). -/
theorem marked_of_command_write (hp : s.phase = .idle) (h : ¬ readsUnwritten s (writeAt 0x008 v)) :
    ∀ r ∈ operandRegs v, s.marked r = true := by
  intro r hr
  by_contra hm
  exact h ⟨0x008, windowOffset_coreBase (by decide), State.busy_eq_false_iff.mpr hp, r, hr,
    Bool.eq_false_iff.mpr hm⟩

theorem readAt_inj {off' : Nat} (h : readAt off = readAt off') : off = off' := by
  simpa [readAt] using h

theorem writeAt_inj {off' : Nat} {v' : Word} (h : writeAt off v = writeAt off' v') : off = off' ∧ v = v' := by
  simpa [writeAt] using h

theorem readAt_ne_writeAt {off' : Nat} : readAt off ≠ writeAt off' v := by
  simp [readAt, writeAt]

/-- Only a read of x[i] while busy takes a free value (10_state.md R40). -/
theorem hostRead_freeCtr (hlt : off < 256) (h4 : off % 4 = 0)
    (hidle : ∀ i, off = regOffset i → s.phase = .idle) : (s.hostRead (target off)).freeCtr = s.freeCtr := by
  rcases target_cases h4 hlt with ⟨ht, _⟩ | ⟨ht, _⟩ | ⟨ht, _⟩ | ⟨ht, _⟩ | ⟨i, ht, ho⟩ | ht <;> rw [ht]
  case inr.inr.inr.inr.inl =>
    rw [State.hostRead_reg_of_idle i (hidle i ho)]
    rfl
  all_goals rfl

/-- Only a soft reset takes a free value for a write (10_state.md R33). -/
theorem hostWrite_freeCtr (hlt : off < 256) (h4 : off % 4 = 0) :
    (s.hostWrite v (target off)).freeCtr = s.freeCtr ∨ (off = 0x000 ∧ v.getLsbD 31 = true) := by
  rcases hostWrite_cases s v h4 hlt with ⟨ho, hw⟩ | ⟨_, hw⟩ | ⟨_, _, hw⟩ | ⟨_, _, hw⟩ | ⟨_, _, _, hw⟩ |
    ⟨_, hw⟩ | ⟨_, hw⟩ <;> rw [hw]
  case inl =>
    rcases writeCtrl_cases s v with ⟨hv, _⟩ | ⟨_, hc⟩
    · exact .inr ⟨ho, hv⟩
    · exact .inl (by rw [hc]; rfl)
  case inr.inr.inl =>
    obtain ⟨k, -, hacc⟩ := accept_eq s v
    exact .inl (by rw [hacc])
  all_goals exact .inl rfl

end Protocol

/-- Settles O57: the protocol excludes the dropped writes and the reads while busy, and R21 the unwritten
registers. -/
theorem protocolHostNeverCollides : Obligations.ProtocolHostNeverCollides := by
  unfold Obligations.ProtocolHostNeverCollides
  intro s a ts hr ht hkeeps hwritten
  obtain ⟨off, hlt, h4, rfl | ⟨v, rfl⟩⟩ := keepsProtocol_legal hkeeps
  · have hidle : ∀ i, off = regOffset i → s.phase = .idle := by
      rintro i rfl
      exact idle_of_protocol_reg_read hkeeps
    refine ⟨_, step_read hr hlt h4 ht, ?coll, .inl (hostRead_freeCtr hlt h4 hidle), fun i ha => ?value,
      fun w ha => absurd ha readAt_ne_writeAt⟩
    case coll =>
      obtain ⟨v, n, hread⟩ := hostRead_eq { s with turns := ts } (target off)
      rw [hread]
      exact id
    case value =>
      obtain rfl := readAt_inj ha
      have hp := hidle i rfl
      rw [target_regOffset, State.hostRead_reg_of_idle (s := { s with turns := ts }) i hp]
      exact ⟨marked_of_reg_read hp hwritten, rfl⟩
  · have hkept := not_drops_of_protocol_write hlt hkeeps
    refine ⟨_, step_write hr hlt h4 ht, fun hc => (hostWrite_sets_coll v h4 hlt hc).resolve_right hkept,
      (hostWrite_freeCtr hlt h4).imp_right fun ⟨ho, hv⟩ => ⟨v, hv, by rw [ho]⟩,
      fun i ha => absurd ha.symm readAt_ne_writeAt, fun w ha => ?issued⟩
    case issued =>
      obtain ⟨rfl, rfl⟩ := writeAt_inj ha
      have hp : s.phase = .idle := by
        by_contra hp
        exact hkept (.inl ⟨rfl, hp⟩)
      refine ⟨?_, marked_of_command_write hp hwritten⟩
      exact congrArg State.cmdLatch (State.writeCmd_of_idle (s := { s with turns := ts }) (w := v) hp)

end Sys2Proof.Machine
end
